-- ==== Sys2Proof/Word.lean ====
section
/-! DEFINITION. The data types of the unit: bytes, halves, words and descriptors (00_scope.md R5, R6), the two byte
orders (20_memory.md R30 to R32) and the four pack depths (30_encoding.md R55). -/

namespace Sys2Proof

/-- A byte, an integer 0 to 255 (R6). -/
abbrev Byte := BitVec 8

/-- A half, 16 bits (R6). -/
abbrev Half := BitVec 16

/-- A word, 32 bits (R6). -/
abbrev Word := BitVec 32

/-- A command descriptor, an abstract 96-bit value (30_encoding.md R50). -/
abbrev Cmd := BitVec 96

/-- The byte order an operation's `be` operand selects (R32: `be = 1` is big-endian). -/
inductive ByteOrder where
  | big
  | little
deriving DecidableEq, Repr

/-- The four pack depths, exactly 1, 2, 4 and 8 bits per pixel (R5, R55); no other depth can be written down (U3). -/
inductive Depth where
  | d1
  | d2
  | d4
  | d8
deriving DecidableEq, Repr

end Sys2Proof
end

