-- ==== Sys2Proof/Config.lean ====
section
/-! DEFINITION. What an implementation of the unit fixes. The one open parameter is LEN_MAX (00_scope.md R5, D12); the
depth-8 byte function that 93_implementation_defined.md U7 recommends as a named configuration function is
`Sys2Proof.Config.depth8Byte`, declared in Machine/Operands.lean. -/

namespace Sys2Proof

/-- The open parameter of the unit. -/
structure Config where
  /-- `LEN_MAX`, the largest stream length the unit accepts: a natural number, or `none` for unbounded (R5, D12). -/
  lenMax : Option Nat
deriving DecidableEq, Repr

/-- The configuration the rules of the spec are written for: unbounded streams (R5).
DESIGN CHOICE, unsafe (log entry 2): the spec leaves LEN_MAX open. -/
def Config.unbounded : Config := { lenMax := none }

end Sys2Proof
end

