-- ==== Sys2Proof/Machine/Operands.lean ====
section
/-! DEFINITION. The integer serialisations (20_memory.md R30 to R32), the readings of a bit pattern as a number
(00_scope.md R7, 30_encoding.md R58) and the pack quantities and bytes (42_byte_packer.md R91 to R95). -/

namespace Sys2Proof

/-- Most significant byte first (R30). -/
def be32 (w : Word) : Vector Byte 4 :=
  #v[w.extractLsb' 24 8, w.extractLsb' 16 8, w.extractLsb' 8 8, w.extractLsb' 0 8]

/-- Least significant byte first (R31). PRESUMED by the spec (G2, log entry 9). -/
def le32 (w : Word) : Vector Byte 4 :=
  #v[w.extractLsb' 0 8, w.extractLsb' 8 8, w.extractLsb' 16 8, w.extractLsb' 24 8]

/-- R30 for a half. -/
def be16 (h : Half) : Vector Byte 2 := #v[h.extractLsb' 8 8, h.extractLsb' 0 8]

/-- R31 for a half. -/
def le16 (h : Half) : Vector Byte 2 := #v[h.extractLsb' 0 8, h.extractLsb' 8 8]

/-- R32. -/
def enc32 (w : Word) : ByteOrder → Vector Byte 4
  | .big => be32 w
  | .little => le32 w

/-- R32. -/
def enc16 (h : Half) : ByteOrder → Vector Byte 2
  | .big => be16 h
  | .little => le16 h

/-- R32, on exactly four bytes: the first byte is the most significant for big-endian, the least for little-endian. -/
def dec32 (bs : Vector Byte 4) : ByteOrder → Word
  | .big => bs[0] ++ bs[1] ++ bs[2] ++ bs[3]
  | .little => bs[3] ++ bs[2] ++ bs[1] ++ bs[0]

/-- `sext_N` (R7): the signed value of a bit pattern; the int32 of a result word `w` is `sext w`.
PRESUMED by the spec (G1, log entry 8). -/
def sext {n : Nat} (v : BitVec n) : Int := if v.toNat < 2 ^ (n - 1) then v.toNat else (v.toNat : Int) - 2 ^ n

/-- `zext_N` (R7): the unsigned value of a bit pattern. -/
def zext {n : Nat} (v : BitVec n) : Nat := v.toNat

/-- R58: the N-bit pattern the host passes for an integer, `v + 2^N` for a negative one. -/
def patternOf (n : Nat) (v : Int) : BitVec n := BitVec.ofInt n v

/-- The depth as a number of bits, `1 << dsel` (R55). -/
def Depth.bits : Depth → Nat
  | .d1 => 1
  | .d2 => 2
  | .d4 => 4
  | .d8 => 8

/-- `step = 16/depth`, the samples of one 16-bit output word (R90). -/
def Depth.step (d : Depth) : Nat := 16 / d.bits

/-- `halfstep = 8/depth`, the samples of one output byte (R90). -/
def Depth.halfstep (d : Depth) : Nat := 8 / d.bits

/-- `fmask = (1 << depth) - 1`, the all-ones pattern of one pixel field (R91). -/
def Depth.fieldMask (d : Depth) : Byte := BitVec.ofNat 8 (1 <<< d.bits - 1)

/-- `nz(s)`: the sample is not zero (R8). -/
def nz (s : Byte) : Bool := s != 0

/-- The byte of one sample at depth 8, the named configuration function of 93_implementation_defined.md U7: the spec's
normative value binarises (R95, C1). UNVERIFIED (log entry 6). -/
def Config.depth8Byte (s : Byte) : Byte := if s = 0 then 0x00 else 0xFF

/-- The pixel field of one sample before it is shifted into place: all ones if the sample is not zero, else all
zeros (R93, R95). -/
def sampleField (d : Depth) (s : Byte) : Byte :=
  match d with
  | .d8 => Config.depth8Byte s
  | .d1 | .d2 | .d4 => if nz s then d.fieldMask else 0

/-- The OR of the fields of the samples of one group, the first of them field number `j`: field `j` is shifted left by
`depth*j` (R92, R93). -/
def packFields (d : Depth) (j : Nat) : List Byte → Byte
  | [] => 0
  | s :: rest => (sampleField d s <<< (d.bits * j)) ||| packFields d (j + 1) rest

/-- One output byte from `halfstep` consecutive samples (R93). -/
def packByte (d : Depth) (samples : List Byte) : Byte := packFields d 0 samples

/-- One 16-bit output word from `step` samples: `A` from the first half, `B` from the second, `A` first unless the word
flip is set (R92, R94). -/
def packWord (d : Depth) (flip : Bool) (samples : List Byte) : List Byte :=
  let a := packByte d (samples.take (d.halfstep))
  let b := packByte d (samples.drop (d.halfstep))
  if flip then [b, a] else [a, b]

/-- The signature of a Command Block Wrapper, ASCII "USBC" (43_command_framing.md R113, C3).
PRESUMED by the spec (G3, log entry 10). -/
def cbwSignature : List Byte := [0x55, 0x53, 0x42, 0x43]

/-- The constant header byte of a Register Command, "customer command" (R117). -/
def regcmdHeader : Byte := 0xFE

end Sys2Proof
end

