-- ==== Sys2Proof/Syntax.lean ====
section
/-! DEFINITION. The nine operations of the unit (30_encoding.md R59, Table T59), one constructor per row of
opcode_table.json. Every operand has exactly the width of its serialised form (R57), so a value that does not fit
cannot be written down (U5). -/

namespace Sys2Proof

/-- An operation of the unit with its descriptor operands; the input stream `DIN` is no operand (R14). -/
inductive Instr where
  /-- I2B, `intToBytes(value, bigEndian)` (R70). -/
  | i2b (be : ByteOrder) (value : Word)
  /-- S2B, `shortToBytes(value, bigEndian)` (R71). -/
  | s2b (be : ByteOrder) (value : Half)
  /-- B2I, `bytesToInt(4 bytes, bigEndian)` (R72). -/
  | b2i (be : ByteOrder)
  /-- B2IA, `bytesToIntArray(bytes, bigEndian)` (R73). -/
  | b2ia (be : ByteOrder)
  /-- U8, `uint8(value)` (R74). -/
  | u8 (value : Byte)
  /-- PACK, `pack(depth, samples, wordFlip)` (R92). -/
  | pack (flip : Bool) (depth : Depth)
  /-- CBW, build a Command Block Wrapper (R111). -/
  | cbw (be : ByteOrder) (flags lun cmdlen : Byte) (tag dtl : Word)
  /-- CSW, parse a Command Status Wrapper (R115). -/
  | csw (be : ByteOrder)
  /-- REGCMD, build a Register Command (R118). -/
  | regcmd (code : Byte) (address : Word) (lov : Half)
deriving DecidableEq, Repr

end Sys2Proof
end

