-- ==== Sys2Proof/WellFormed.lean ====
section
/-! DEFINITION. The descriptor as its nine fields (30_encoding.md R51, Table T51) and the field-by-field reading of
Table T53: which fields an operation uses and which must be zero (R53, R61). Decode.lean transcribes the other two
columns of T53 (match and mask) on their own; that the two readings agree is stated as an obligation.
An `Instr` needs no check of its own: its types hold exactly the operands R57 admits. -/

namespace Sys2Proof

/-- The names of the nine operations (R59). -/
inductive Op where
  | i2b
  | s2b
  | b2i
  | b2ia
  | u8
  | pack
  | cbw
  | csw
  | regcmd
deriving DecidableEq, Repr

/-- The fields of a descriptor (Table T51). -/
structure Fields where
  op : BitVec 4
  be : BitVec 1
  flip : BitVec 1
  dsel : BitVec 2
  b0 : Byte
  b1 : Byte
  b2 : Byte
  a : Word
  b : Word
deriving DecidableEq, Repr

/-- Table T53, columns `be` to `b`: every field or part of a field marked mbz for the operation is zero (R61).
The `op` field itself is not looked at. -/
def Fields.wellFormed (f : Fields) : Op → Bool
  | .i2b => f.flip == 0 && f.dsel == 0 && f.b0 == 0 && f.b1 == 0 && f.b2 == 0 && f.b == 0
  | .s2b => f.flip == 0 && f.dsel == 0 && f.b0 == 0 && f.b1 == 0 && f.b2 == 0 && f.a.extractLsb' 16 16 == 0 && f.b == 0
  | .b2i => f.flip == 0 && f.dsel == 0 && f.b0 == 0 && f.b1 == 0 && f.b2 == 0 && f.a == 0 && f.b == 0
  | .b2ia => f.flip == 0 && f.dsel == 0 && f.b0 == 0 && f.b1 == 0 && f.b2 == 0 && f.a == 0 && f.b == 0
  | .u8 => f.be == 0 && f.flip == 0 && f.dsel == 0 && f.b0 == 0 && f.b1 == 0 && f.b2 == 0 &&
      f.a.extractLsb' 8 24 == 0 && f.b == 0
  | .pack => f.be == 0 && f.b0 == 0 && f.b1 == 0 && f.b2 == 0 && f.a == 0 && f.b == 0
  | .cbw => f.flip == 0 && f.dsel == 0
  | .csw => f.flip == 0 && f.dsel == 0 && f.b0 == 0 && f.b1 == 0 && f.b2 == 0 && f.a == 0 && f.b == 0
  | .regcmd => f.be == 0 && f.flip == 0 && f.dsel == 0 && f.b1 == 0 && f.b2 == 0 && f.b.extractLsb' 16 16 == 0

end Sys2Proof
end

