-- ==== Sys2Proof/Decode.lean ====
section
/-! DEFINITION. The descriptor's decoder and encoder (30_encoding.md R50 to R62). Decoding is total on the 2^96
descriptor values: an instruction, an illegal operation or an illegal field (R62). -/

namespace Sys2Proof

/-- Table T51: the fields of a descriptor. -/
def fieldsOf (c : Cmd) : Fields :=
  { op := c.extractLsb' 0 4, be := c.extractLsb' 4 1, flip := c.extractLsb' 5 1, dsel := c.extractLsb' 6 2,
    b0 := c.extractLsb' 8 8, b1 := c.extractLsb' 16 8, b2 := c.extractLsb' 24 8,
    a := c.extractLsb' 32 32, b := c.extractLsb' 64 32 }

/-- Table T51 the other way: the descriptor that holds the given fields. -/
def Fields.toCmd (f : Fields) : Cmd :=
  f.b ++ f.a ++ f.b2 ++ f.b1 ++ f.b0 ++ f.dsel ++ f.flip ++ f.be ++ f.op

/-- Operation numbers (R52). -/
def Op.number : Op → BitVec 4
  | .i2b => 1
  | .s2b => 2
  | .b2i => 3
  | .b2ia => 4
  | .u8 => 5
  | .pack => 6
  | .cbw => 7
  | .csw => 8
  | .regcmd => 9

/-- The nine operations in the table's order. -/
def Op.all : List Op := [.i2b, .s2b, .b2i, .b2ia, .u8, .pack, .cbw, .csw, .regcmd]

/-- The operation an `op` field selects; none for the reserved values (R52, R60). -/
def Op.ofNumber (n : BitVec 4) : Option Op := Op.all.find? (fun o => o.number == n)

/-- Table T53, column `match`. -/
def Op.pattern : Op → Cmd
  | .i2b => 0x000000000000000000000001
  | .s2b => 0x000000000000000000000002
  | .b2i => 0x000000000000000000000003
  | .b2ia => 0x000000000000000000000004
  | .u8 => 0x000000000000000000000005
  | .pack => 0x000000000000000000000006
  | .cbw => 0x000000000000000000000007
  | .csw => 0x000000000000000000000008
  | .regcmd => 0x000000000000000000000009

/-- Table T53, column `mask`. -/
def Op.mask : Op → Cmd
  | .i2b => 0xFFFFFFFF00000000FFFFFFEF
  | .s2b => 0xFFFFFFFFFFFF0000FFFFFFEF
  | .b2i => 0xFFFFFFFFFFFFFFFFFFFFFFEF
  | .b2ia => 0xFFFFFFFFFFFFFFFFFFFFFFEF
  | .u8 => 0xFFFFFFFFFFFFFF00FFFFFFFF
  | .pack => 0xFFFFFFFFFFFFFFFFFFFFFF1F
  | .cbw => 0x0000000000000000000000EF
  | .csw => 0xFFFFFFFFFFFFFFFFFFFFFFEF
  | .regcmd => 0xFFFF000000000000FFFF00FF

/-- R53, R61: the descriptor is a well-formed one of the operation exactly when `(c & mask) = match`. -/
def Op.selects (o : Op) (c : Cmd) : Bool := (c &&& o.mask) == o.pattern

/-- `be = 1` is big-endian (R32, T51). -/
def ByteOrder.ofBit (x : BitVec 1) : ByteOrder := if x = 1 then .big else .little

/-- The `be` bit of a byte order. -/
def ByteOrder.toBit : ByteOrder → BitVec 1
  | .big => 1
  | .little => 0

/-- R55: `dsel = 0, 1, 2, 3` selects depth 1, 2, 4, 8. -/
def Depth.ofSelector (x : BitVec 2) : Depth :=
  if x = 0 then .d1 else if x = 1 then .d2 else if x = 2 then .d4 else .d8

/-- The depth selector of a depth (R55). -/
def Depth.selector : Depth → BitVec 2
  | .d1 => 0
  | .d2 => 1
  | .d4 => 2
  | .d8 => 3

/-- Operand assembly (R57): each operand of the operation out of its descriptor field. -/
def Op.operands (f : Fields) : Op → Instr
  | .i2b => .i2b (.ofBit f.be) f.a
  | .s2b => .s2b (.ofBit f.be) (f.a.extractLsb' 0 16)
  | .b2i => .b2i (.ofBit f.be)
  | .b2ia => .b2ia (.ofBit f.be)
  | .u8 => .u8 (f.a.extractLsb' 0 8)
  | .pack => .pack (f.flip == 1) (.ofSelector f.dsel)
  | .cbw => .cbw (.ofBit f.be) f.b0 f.b1 f.b2 f.a f.b
  | .csw => .csw (.ofBit f.be)
  | .regcmd => .regcmd f.b0 f.a (f.b.extractLsb' 0 16)

/-- What a descriptor decodes to; exactly one of the three cases of R62. -/
inductive Decoded where
  /-- A well-formed descriptor (R53). -/
  | instr (i : Instr)
  /-- A reserved `op` field, 0 or 10 to 15 (R60). -/
  | illegalOperation
  /-- A defined `op` with a non-zero must-be-zero bit (R61). -/
  | illegalField
deriving DecidableEq, Repr

/-- The decoder (R60 to R62): first the `op` field, then the must-be-zero bits, then the operands. -/
def decode (c : Cmd) : Decoded :=
  match Op.ofNumber (fieldsOf c).op with
  | none => .illegalOperation
  | some o => if o.selects c then .instr (o.operands (fieldsOf c)) else .illegalField

/-- The descriptor fields of an instruction: used fields hold the operands, every other field is zero (R51, R57). -/
def Instr.fields : Instr → Fields
  | .i2b be v => { op := 1, be := be.toBit, flip := 0, dsel := 0, b0 := 0, b1 := 0, b2 := 0, a := v, b := 0 }
  | .s2b be v =>
    { op := 2, be := be.toBit, flip := 0, dsel := 0, b0 := 0, b1 := 0, b2 := 0, a := v.setWidth 32, b := 0 }
  | .b2i be => { op := 3, be := be.toBit, flip := 0, dsel := 0, b0 := 0, b1 := 0, b2 := 0, a := 0, b := 0 }
  | .b2ia be => { op := 4, be := be.toBit, flip := 0, dsel := 0, b0 := 0, b1 := 0, b2 := 0, a := 0, b := 0 }
  | .u8 v => { op := 5, be := 0, flip := 0, dsel := 0, b0 := 0, b1 := 0, b2 := 0, a := v.setWidth 32, b := 0 }
  | .pack flip d =>
    { op := 6, be := 0, flip := if flip then 1 else 0, dsel := d.selector, b0 := 0, b1 := 0, b2 := 0, a := 0, b := 0 }
  | .cbw be flags lun cmdlen tag dtl =>
    { op := 7, be := be.toBit, flip := 0, dsel := 0, b0 := flags, b1 := lun, b2 := cmdlen, a := tag, b := dtl }
  | .csw be => { op := 8, be := be.toBit, flip := 0, dsel := 0, b0 := 0, b1 := 0, b2 := 0, a := 0, b := 0 }
  | .regcmd code address lov =>
    { op := 9, be := 0, flip := 0, dsel := 0, b0 := code, b1 := 0, b2 := 0, a := address, b := lov.setWidth 32 }

/-- The encoder: the one descriptor of an instruction. -/
def encode (i : Instr) : Cmd := i.fields.toCmd

/-- The name of an instruction's operation. -/
def Instr.op : Instr → Op
  | .i2b .. => .i2b
  | .s2b .. => .s2b
  | .b2i .. => .b2i
  | .b2ia .. => .b2ia
  | .u8 .. => .u8
  | .pack .. => .pack
  | .cbw .. => .cbw
  | .csw .. => .csw
  | .regcmd .. => .regcmd

/-- The descriptor whose low `nbits` bits are those of `w`, every bit above them zero. The spec gives CMD no byte
order (R50: an abstract 96-bit value), so the table's numbering is the descriptor's own. -/
def tableCmd (nbits w : Nat) : Cmd := BitVec.ofNat 96 (w % 2 ^ nbits)

/-- The instruction the decoder reads from a word numbered as opcode_table.json numbers it. -/
def decodeTableWord (nbits w : Nat) : Option Instr :=
  match decode (tableCmd nbits w) with
  | .instr i => some i
  | .illegalOperation => none
  | .illegalField => none

end Sys2Proof
end

