-- ==== Sys2Proof/Machine/State.lean ====
section
/-! DEFINITION. The state of the unit and of its host (10_state.md R10 to R19; 70_reset_and_hazards.md R150, R162, R163).
The unit itself holds nothing between transactions; during one it holds the five transaction values. -/

namespace Sys2Proof.Machine

/-- The three faults a transaction can raise (60_exceptions.md R130, Table T130). A transaction that raises one
completes with its code: a next state, not a stop of the machine. -/
inductive FaultCode where
  | illegalOperation
  | illegalField
  | lengthError
deriving DecidableEq, Repr

/-- The completion code `STAT` (R130); only these four are ever produced (U17). Its 4-bit number is `Stat.code`. -/
inductive Stat where
  | ok
  | fault (f : FaultCode)
deriving DecidableEq, Repr

/-- The response of one transaction, handed over whole at completion (R14, R16, R56). -/
structure Response where
  stat : Stat
  dout : List Byte
  wout : List Word
deriving DecidableEq, Repr

/-- What the host does in one step (70_reset_and_hazards.md Table T162). -/
inductive HostAct where
  /-- Issue a transaction: hand over its descriptor and its input stream. -/
  | issue (cmd : Cmd) (din : List Byte)
  /-- Do nothing, so that a transaction in progress completes. -/
  | wait
  /-- Pull the optional reset input (R151). -/
  | reset
deriving DecidableEq, Repr

/-- The unit and its host. -/
structure State where
  /-- A transaction is in progress (R18). -/
  inProgress : Bool
  /-- `CMD`, the descriptor captured at issue (R14, R43). -/
  cmd : Cmd
  /-- `DIN`, the input stream captured at issue (R14, R15, R157). -/
  din : List Byte
  /-- `DOUT`, the output byte stream of the transaction in progress (R14, R16). -/
  dout : List Byte
  /-- `WOUT`, the output word stream of the transaction in progress (R14, R16). -/
  wout : List Word
  /-- The open parameter (R5); no step changes it. -/
  config : Config
  /-- What the host does in the coming steps, next first; after the last one it waits. The model's own field (R11, R163). -/
  host : List HostAct
  /-- The responses the host has received, oldest first. The model's own field (R163). -/
  responses : List Response
deriving DecidableEq, Repr

/-- Right after reset: idle, nothing held (R19, R150), the host has issued nothing and received nothing.
DESIGN CHOICE (log entries 1, 2, 3): the values of the idle transaction fields, of LEN_MAX and of the host's fields. -/
def State.reset : State :=
  { inProgress := false, cmd := 0, din := [], dout := [], wout := [], config := Config.unbounded, host := [],
    responses := [] }

/-- Why the machine stops. -/
inductive Fault where
  /-- Raised by `fetch` when the host issues a transaction while one is in progress: the spec gives that issue no move
  (R41, R155, U6). A stuck state: safe, no claim about what follows can be proved. -/
  | overlappingIssue
  /-- Raised by a meaning that reads `DIN` beyond its end, where `MemRead` is not defined (00_scope.md R8). Safe; no
  execution of any instruction reaches it, because every meaning checks the length first. -/
  | dinOutOfRange
deriving DecidableEq, Repr

/-- Why the machine gives a transaction no meaning. -/
inductive Refusal where
  /-- An instruction without a meaning; no instruction of this model is left without one. Safe. -/
  | notModelled (mnemonic : String)
  /-- Raised by `State.accept` and `State.finish` when `DIN` or `DOUT` is longer than a finite LEN_MAX (20_memory.md
  R35, U12). Safe: the machine stops. It never happens with LEN_MAX unbounded. -/
  | exceedsLenMax
deriving DecidableEq, Repr

/-- The outcome of a step or of an instruction. -/
abbrev Out := Host.Outcome State Fault Refusal

end Sys2Proof.Machine
end

