-- ==== Sys2Proof/Machine/Ops.lean ====
section
/-! DEFINITION. The named operations over the streams and the transaction (00_scope.md R8; 20_memory.md R35, R37, R38),
raising a fault as one shared operation (60_exceptions.md R137), completing (10_state.md R16), issuing (R14, R43) and
resetting (70_reset_and_hazards.md R150, R151). There is no return from a fault (R139). -/

namespace Sys2Proof.Machine

/-- `MemRead(DIN:i, n)`: the bytes `i` to `i + n - 1`, defined only when they all exist (R8, R37). -/
def memRead (bs : List Byte) (i n : Nat) : Option (Vector Byte n) :=
  if h : i + n ≤ bs.length then some ⟨((bs.drop i).take n).toArray, by simp; omega⟩ else none

/-- `count` consecutive groups of `size` bytes, group `k` first: group `k` is `MemRead(DIN:k*size, size)` (the loops of
R73 and R92). -/
def readGroups (bs : List Byte) (size : Nat) : Nat → Nat → Option (List (Vector Byte size))
  | 0, _ => some []
  | count + 1, k =>
    match memRead bs (k * size) size, readGroups bs size count (k + 1) with
    | some g, some gs => some (g :: gs)
    | _, _ => none

/-- `MemWrite(DOUT:i, n, bs)` with `n` the number of bytes of `bs`: the bytes `i` to `i + n - 1` become `bs` (R8, R37). -/
def memWrite (out : List Byte) (i : Nat) (bs : List Byte) : List Byte := out.take i ++ bs ++ out.drop (i + bs.length)

/-- `emit(bs)`: `MemWrite` at the end of `DOUT`, which appends (R8). -/
def State.emit (s : State) (bs : List Byte) : State := { s with dout := memWrite s.dout s.dout.length bs }

/-- `emitw` of each word of a list in order: append to `WOUT` (R8). -/
def State.emitw (s : State) (ws : List Word) : State := { s with wout := s.wout ++ ws }

/-- The unit keeps nothing: no transaction in progress and no copy of its values (R16, R19, R150). -/
def State.clear (s : State) : State :=
  { s with inProgress := false, cmd := 0, din := [], dout := [], wout := [] }

/-- Complete: hand `(STAT, DOUT, WOUT)` to the host whole and keep no copy (R14, R16, R38). -/
def State.complete (s : State) (st : Stat) : State :=
  { s.clear with responses := s.responses ++ [{ stat := st, dout := s.dout, wout := s.wout }] }

/-- `raise <Fault>`: the transaction completes with the fault's code and both streams empty, whatever was emitted
before (R8, R137). Nothing else is saved or changed (R137, R138). -/
def State.raise (s : State) (f : FaultCode) : State := { s with dout := [], wout := [] }.complete (.fault f)

/-- The unit takes a stream of `n` bytes: `n` is at most LEN_MAX (R5). -/
def admits (c : Config) (n : Nat) : Bool :=
  match c.lenMax with
  | none => true
  | some m => decide (n ≤ m)

/-- The length checks every operation makes before it reads or emits anything (R35, Table T35): a `DIN` beyond LEN_MAX
is refused, a `DIN` of a length the operation does not accept raises `LengthError`, otherwise the body runs.
The order of the two is a DESIGN CHOICE (log entry 5). -/
def State.accept (s : State) (lengthOk : Bool) (body : Out) : Out :=
  if admits s.config s.din.length then
    if lengthOk then body else .next (s.raise .lengthError)
  else .refused .exceedsLenMax

/-- The end of a pseudocode without `raise`: `STAT = OK` (R8), unless the `DOUT` made is beyond LEN_MAX (R35). -/
def State.finish (s : State) : Out :=
  if admits s.config s.dout.length then .next (s.complete .ok) else .refused .exceedsLenMax

/-- The host issues a transaction: `CMD` and `DIN` are captured whole, `DOUT` and `WOUT` start empty (R14, R43, R157). -/
def State.begin (s : State) (cmd : Cmd) (din : List Byte) : State :=
  { s with inProgress := true, cmd := cmd, din := din, dout := [], wout := [] }

/-- What the unit and its host do next, before any instruction runs. -/
inductive Move where
  /-- The machine stops. -/
  | stop (f : Fault)
  /-- A step that runs no instruction. -/
  | moved (s : State)
  /-- The instruction runs in this state. -/
  | run (i : Instr) (s : State)
deriving DecidableEq, Repr

/-- The unit's own move while the host waits: nothing when idle (R135, R150); otherwise the descriptor of the transaction
in progress is decoded, and an illegal one raises its fault whatever `DIN` is (R60, R61, R136). -/
def State.serve (s : State) : Move :=
  if s.inProgress then
    match decode s.cmd with
    | .instr i => .run i s
    | .illegalOperation => .moved (s.raise .illegalOperation)
    | .illegalField => .moved (s.raise .illegalField)
  else .moved s

/-- One step of host and unit (Table T162): the host's next act is taken; while it waits the unit serves. An issue during
a transaction has no move (R155); a reset abandons the transaction without a response (R151). Log entries 3, 4, 11. -/
def fetch (s : State) : Move :=
  match s.host with
  | [] => s.serve
  | .wait :: rest => { s with host := rest }.serve
  | .reset :: rest => .moved { s with host := rest }.clear
  | .issue cmd din :: rest =>
    if s.inProgress then .stop .overlappingIssue else .moved ({ s with host := rest }.begin cmd din)

end Sys2Proof.Machine
end

