-- ==== Sys2Proof/Machine/Codec.lean ====
section
/-! DEFINITION. The Integer/Endian Codec (41_endian_codec.md R70 to R78): I2B, S2B, B2I, B2IA, U8. -/

namespace Sys2Proof.Machine

/-- I2B (R70). -/
def execI2b (be : ByteOrder) (value : Word) (s : State) : Out :=
  s.accept (s.din.length == 0) ((s.emit (enc32 value be).toList).finish)

/-- S2B (R71). -/
def execS2b (be : ByteOrder) (value : Half) (s : State) : Out :=
  s.accept (s.din.length == 0) ((s.emit (enc16 value be).toList).finish)

/-- B2I (R72). -/
def execB2i (be : ByteOrder) (s : State) : Out :=
  s.accept (s.din.length == 4) <|
    match memRead s.din 0 4 with
    | some bs => (s.emitw [dec32 bs be]).finish
    | none => .fault .dinOutOfRange

/-- B2IA (R73): one word for each group of four bytes; a length that is no multiple of 4 fails (D9, C2). -/
def execB2ia (be : ByteOrder) (s : State) : Out :=
  s.accept (s.din.length % 4 == 0) <|
    match readGroups s.din 4 (s.din.length / 4) 0 with
    | some groups => (s.emitw (groups.map (fun bs => dec32 bs be))).finish
    | none => .fault .dinOutOfRange

/-- U8 (R74). -/
def execU8 (value : Byte) (s : State) : Out :=
  s.accept (s.din.length == 0) ((s.emit [value]).finish)

end Sys2Proof.Machine
end

