-- ==== Sys2Proof/Machine/Framing.lean ====
section
/-! DEFINITION. Command Framing (43_command_framing.md R110 to R119): CBW, CSW, REGCMD. -/

namespace Sys2Proof.Machine

/-- CBW (R110, R111): any length of command data; `command_length` is copied, not checked against it (D16). -/
def execCbw (be : ByteOrder) (flags lun cmdlen : Byte) (tag dtl : Word) (s : State) : Out :=
  s.accept true <|
    match memRead s.din 0 s.din.length with
    | some data =>
      (((((s.emit cbwSignature).emit (enc32 tag be).toList).emit (enc32 dtl be).toList).emit
        [flags, lun, cmdlen]).emit data.toList).finish
    | none => .fault .dinOutOfRange

/-- CSW (R114, R115): exactly 13 bytes; nothing but the length is checked (R116). -/
def execCsw (be : ByteOrder) (s : State) : Out :=
  s.accept (s.din.length == 13) <|
    match memRead s.din 0 4, memRead s.din 4 4, memRead s.din 8 4, memRead s.din 12 1 with
    | some signature, some tag, some residue, some status =>
      ((((s.emit signature.toList).emitw [dec32 tag be]).emitw [dec32 residue be]).emit status.toList).finish
    | _, _, _, _ => .fault .dinOutOfRange

/-- REGCMD (R117, R118): the integers are big-endian whatever the transaction. -/
def execRegcmd (code : Byte) (address : Word) (lov : Half) (s : State) : Out :=
  s.accept (s.din.length == 0)
    (((((s.emit [regcmdHeader, 0x00]).emit (enc32 address .big).toList).emit [code]).emit (enc16 lov .big).toList).emit
      [0, 0, 0, 0, 0, 0, 0]).finish

end Sys2Proof.Machine
end

