-- ==== Sys2Proof/Machine/Packer.lean ====
section
/-! DEFINITION. The Byte Packer (42_byte_packer.md R90 to R97): PACK. -/

namespace Sys2Proof.Machine

/-- PACK (R92): one 16-bit word of two bytes for each `step` samples; a length that is no multiple of `step` fails (D10).
Each sample is read once, `step` at a time, where R92 reads them one by one (R38: reads have no side effect). -/
def execPack (flip : Bool) (depth : Depth) (s : State) : Out :=
  s.accept (s.din.length % depth.step == 0) <|
    match readGroups s.din depth.step (s.din.length / depth.step) 0 with
    | some groups => (s.emit (groups.flatMap (fun g => packWord depth flip g.toList))).finish
    | none => .fault .dinOutOfRange

end Sys2Proof.Machine
end

