-- ==== Sys2Proof/Machine/Dispatch.lean ====
section
/-! DEFINITION. The dispatch of the nine operations (30_encoding.md R59), one arm per constructor. -/

namespace Sys2Proof.Machine

def exec (i : Instr) (s : State) : Host.Outcome State Fault Refusal :=
  match i with
  | .i2b be value => Sys2Proof.Machine.execI2b be value s
  | .s2b be value => Sys2Proof.Machine.execS2b be value s
  | .b2i be => Sys2Proof.Machine.execB2i be s
  | .b2ia be => Sys2Proof.Machine.execB2ia be s
  | .u8 value => Sys2Proof.Machine.execU8 value s
  | .pack flip depth => Sys2Proof.Machine.execPack flip depth s
  | .cbw be flags lun cmdlen tag dtl => Sys2Proof.Machine.execCbw be flags lun cmdlen tag dtl s
  | .csw be => Sys2Proof.Machine.execCsw be s
  | .regcmd code address lov => Sys2Proof.Machine.execRegcmd code address lov s

end Sys2Proof.Machine
end

