-- ==== Sys2Proof/Machine/Step.lean ====
section
/-! DEFINITION. One step of the machine: the move `fetch` finds, with the instruction run where there is one. -/

namespace Sys2Proof.Machine

/-- One step (20_memory.md R40; 70_reset_and_hazards.md R162): an issue, a reset, an idle moment, or the whole execution
of the transaction in progress, which is atomic. -/
def step (s : State) : Host.Outcome State Fault Refusal :=
  match fetch s with
  | .stop f => .fault f
  | .moved t => .next t
  | .run i t => exec i t

/-- `s` with the descriptor `w` issued, so that the very next step runs it: `CMD` captured, the input stream that stands
in `s` taken as its `DIN`, the output streams empty (as `State.begin` leaves them), and the host waiting for one step
before it does what it does in `s`. It stands for the host's issue (log entry 3). -/
def State.withFetchWord (s : State) (nbits w : Nat) : State :=
  { s.begin (tableCmd nbits w) s.din with host := .wait :: s.host }

end Sys2Proof.Machine
end

