-- ==== Sys2Proof/Machine/Assembler.lean ====
section
/-! DEFINITION. The written form of a transaction (30_encoding.md R63, R64): an assembler from lines to a descriptor and
an input stream, the reader of a line's characters, and the written form of a response. It refuses, with `none`, a
missing or forbidden qualifier (R63), a value that does not fit its operand (U5) and an input element that is no byte; it
never masks one. Log entry 13 says what R63 leaves open here. -/

namespace Sys2Proof

/-- Qualifiers of a mnemonic (R63). -/
inductive Qualifier where
  | be
  | le
  | d1
  | d2
  | d4
  | d8
  | flip
deriving DecidableEq, Repr

/-- Names of the written operands (R63). -/
inductive OperandName where
  | value
  | tag
  | dtl
  | flags
  | lun
  | cmdlen
  | addr
  | code
  | lov
deriving DecidableEq, Repr

/-- `MNEMONIC.qualifiers operands <- [input]` (R63). -/
structure AsmLine where
  mnemonic : String
  qualifiers : List Qualifier
  operands : List (OperandName × Nat)
  input : List Nat
deriving DecidableEq, Repr

/-- The nine mnemonics (R59) and D0's names of six of them (R64). -/
def mnemonicTable : List (String × Op) :=
  [("I2B", .i2b), ("S2B", .s2b), ("B2I", .b2i), ("B2IA", .b2ia), ("U8", .u8), ("PACK", .pack), ("CBW", .cbw),
    ("CSW", .csw), ("REGCMD", .regcmd), ("intToBytes", .i2b), ("shortToBytes", .s2b), ("bytesToInt", .b2i),
    ("bytesToIntArray", .b2ia), ("uint8", .u8), ("pack", .pack)]

/-- The operation a written name stands for. -/
def Op.ofName (name : String) : Option Op := (mnemonicTable.find? (fun row => row.1 == name)).map (·.2)

/-- `.BE` or `.LE`, required and alone (R63). -/
def orderOf : List Qualifier → Option ByteOrder
  | [.be] => some .big
  | [.le] => some .little
  | _ => none

/-- The depth qualifier of PACK (R63). -/
def depthOf : Qualifier → Option Depth
  | .d1 => some .d1
  | .d2 => some .d2
  | .d4 => some .d4
  | .d8 => some .d8
  | .be | .le | .flip => none

/-- The qualifiers of PACK: a depth, then `.FLIP` or nothing (R63). DESIGN CHOICE (log entry 13): in that order. -/
def packQualifiers : List Qualifier → Option (Depth × Bool)
  | [q] => (depthOf q).map (fun d => (d, false))
  | [q, .flip] => (depthOf q).map (fun d => (d, true))
  | _ => none

/-- A number as an operand of `n` bits; refused if it does not fit (U5). -/
def fit (n v : Nat) : Option (BitVec n) := if v < 2 ^ n then some (BitVec.ofNat n v) else none

/-- The instruction of an operation with its written qualifiers and operands, operands in the order of R63. -/
def assembleInstr (o : Op) (qs : List Qualifier) (operands : List (OperandName × Nat)) : Option Instr :=
  match o, operands with
  | .i2b, [(.value, v)] => do return .i2b (← orderOf qs) (← fit 32 v)
  | .s2b, [(.value, v)] => do return .s2b (← orderOf qs) (← fit 16 v)
  | .b2i, [] => do return .b2i (← orderOf qs)
  | .b2ia, [] => do return .b2ia (← orderOf qs)
  | .u8, [(.value, v)] => do if qs.isEmpty then return .u8 (← fit 8 v) else none
  | .pack, [] => do
    let (d, f) ← packQualifiers qs
    return .pack f d
  | .cbw, [(.tag, t), (.dtl, l), (.flags, f), (.lun, u), (.cmdlen, c)] => do
    return .cbw (← orderOf qs) (← fit 8 f) (← fit 8 u) (← fit 8 c) (← fit 32 t) (← fit 32 l)
  | .csw, [] => do return .csw (← orderOf qs)
  | .regcmd, [(.addr, a), (.code, c), (.lov, l)] => do
    if qs.isEmpty then return .regcmd (← fit 8 c) (← fit 32 a) (← fit 16 l) else none
  | _, _ => none

/-- The transaction a line writes: its descriptor and its input stream. -/
def AsmLine.assemble (l : AsmLine) : Option (Cmd × List Byte) := do
  let o ← Op.ofName l.mnemonic
  let i ← assembleInstr o l.qualifiers l.operands
  let din ← l.input.mapM (fit 8)
  return (encode i, din)

/-! ### Characters -/

/-- The tokens of a written transaction. -/
inductive Token where
  /-- A mnemonic, a qualifier, an operand name or a number. -/
  | word (cs : List Char)
  /-- One of `.`, `=`, `,`, `[` and `]`. -/
  | mark (c : Char)
  /-- `<-`. -/
  | arrow
deriving DecidableEq, Repr

/-- A word that ends here, if there is one. -/
def endWord (word : List Char) : List Token := if word.isEmpty then [] else [.word word]

/-- The tokens of the characters; `word` holds the characters of the word that is being read.
DESIGN CHOICE (log entry 13): spaces only separate words, and may stand between any two tokens. -/
def tokens (word : List Char) : List Char → List Token
  | [] => endWord word
  | '<' :: '-' :: cs => endWord word ++ .arrow :: tokens [] cs
  | c :: cs =>
    if c = ' ' then endWord word ++ tokens [] cs
    else if ['.', '=', ',', '[', ']'].contains c then endWord word ++ .mark c :: tokens [] cs
    else tokens (word ++ [c]) cs

/-- The value of a digit, upper or lower case. DESIGN CHOICE (log entry 13): R63 names no case. -/
def digit (c : Char) : Option Nat :=
  if '0' ≤ c ∧ c ≤ '9' then some (c.toNat - '0'.toNat)
  else if 'a' ≤ c ∧ c ≤ 'f' then some (c.toNat - 'a'.toNat + 10)
  else if 'A' ≤ c ∧ c ≤ 'F' then some (c.toNat - 'A'.toNat + 10)
  else none

/-- The number of digits in a base, `acc` read so far. -/
def digits (base acc : Nat) : List Char → Option Nat
  | [] => some acc
  | c :: cs =>
    match digit c with
    | some d => if d < base then digits base (acc * base + d) cs else none
    | none => none

/-- A number, decimal or `0x` hexadecimal (R63). -/
def number : List Char → Option Nat
  | [] => none
  | ['0', 'x'] => none
  | '0' :: 'x' :: cs => digits 16 0 cs
  | cs => digits 10 0 cs

/-- The written qualifiers (R63). -/
def qualifierTable : List (String × Qualifier) :=
  [("BE", .be), ("LE", .le), ("D1", .d1), ("D2", .d2), ("D4", .d4), ("D8", .d8), ("FLIP", .flip)]

/-- The written operand names (R63). -/
def operandTable : List (String × OperandName) :=
  [("value", .value), ("tag", .tag), ("dtl", .dtl), ("flags", .flags), ("lun", .lun), ("cmdlen", .cmdlen),
    ("addr", .addr), ("code", .code), ("lov", .lov)]

/-- The entry of a table under a written name. -/
def entryOf {α : Type} (table : List (String × α)) (cs : List Char) : Option α :=
  (table.find? (fun row => row.1.toList == cs)).map (·.2)

/-- A word stands next, as it must after a comma. -/
def wordNext : List Token → Bool
  | .word _ :: _ => true
  | _ => false

/-- The elements of a byte list after its `[`, up to the `]` that ends the line (R63 writes it
`[b0, b1, ...]`). -/
def readBytes : List Token → Option (List Nat)
  | [.mark ']'] => some []
  | [.word v, .mark ']'] => (number v).map (fun n => [n])
  | .word v :: .mark ',' :: rest => if wordNext rest then do return (← number v) :: (← readBytes rest) else none
  | _ => none

/-- The operands of a line end here: the line ends or its byte list begins. -/
def operandsEnd : List Token → Bool
  | [] => true
  | .arrow :: _ => true
  | _ => false

/-- The operands and the input of a line, after its qualifiers.
DESIGN CHOICE (log entry 13): R63 shows commas between operands and states no rule for them; here exactly one comma stands
between two operands and none after the last, and an absent byte list is empty. -/
def readOperands : List Token → Option (List (OperandName × Nat) × List Nat)
  | [] => some ([], [])
  | .arrow :: .mark '[' :: rest => (readBytes rest).map (fun bs => ([], bs))
  | .word n :: .mark '=' :: .word v :: .mark ',' :: rest =>
    if wordNext rest then do
      let (ops, bs) ← readOperands rest
      return ((← entryOf operandTable n, ← number v) :: ops, bs)
    else none
  | .word n :: .mark '=' :: .word v :: rest =>
    if operandsEnd rest then do
      let (ops, bs) ← readOperands rest
      return ((← entryOf operandTable n, ← number v) :: ops, bs)
    else none
  | _ => none

/-- The qualifiers of a line, then its operands and its input. -/
def readQualifiers (mnemonic : String) (qs : List Qualifier) : List Token → Option AsmLine
  | .mark '.' :: .word q :: rest =>
    match entryOf qualifierTable q with
    | some k => readQualifiers mnemonic (qs ++ [k]) rest
    | none => none
  | rest => do
    let (ops, bs) ← readOperands rest
    return { mnemonic := mnemonic, qualifiers := qs, operands := ops, input := bs }

/-- The line the characters write. -/
def readLine (cs : List Char) : Option AsmLine :=
  match tokens [] cs with
  | .word m :: rest => readQualifiers (String.ofList m) [] rest
  | _ => none

/-- A written list of numbers. -/
def listText (ns : List Nat) : String := "[" ++ String.intercalate ", " (ns.map (fun n => toString n)) ++ "]"

/-- The name of a completion code (60_exceptions.md Table T130). -/
def Machine.Stat.text : Machine.Stat → String
  | .ok => "OK"
  | .fault .illegalOperation => "IllegalOperation"
  | .fault .illegalField => "IllegalField"
  | .fault .lengthError => "LengthError"

/-- The written result of a transaction, `-> STAT; DOUT=[...]; WOUT=[...]` (R63).
DESIGN CHOICE (log entry 13): numbers in decimal. -/
def Machine.Response.text (r : Machine.Response) : String :=
  "-> " ++ r.stat.text ++ "; DOUT=" ++ listText (r.dout.map (fun b => b.toNat)) ++ "; WOUT=" ++
    listText (r.wout.map (fun w => w.toNat))

end Sys2Proof
end

