-- ==== Sys2Proof/Machine/Flags.lean ====
section
/-! DEFINITION. The unit has no flags and no condition codes (10_state.md R12). What stands in their place is the
completion code of a transaction and its 4-bit number (60_exceptions.md R130, Table T130). -/

namespace Sys2Proof.Machine

/-- The completion code as the host sees it, four bits (Table T130). -/
def Stat.code : Stat → BitVec 4
  | .ok => 0
  | .fault .illegalOperation => 1
  | .fault .illegalField => 2
  | .fault .lengthError => 3

end Sys2Proof.Machine
end

