-- ==== Sys2Proof/Safety.lean ====
section
/-! DEFINITION. The vocabulary of the statements: what it is to be idle, to serve, to complete with a response, the
accepted lengths and result lengths as the spec's tables give them, and the machine's invariant. Nothing of the
machine's own definitions is used where a table of the spec is transcribed. -/

namespace Sys2Proof.Machine

/-- Idle and holding nothing (70_reset_and_hazards.md R150, R163). -/
abbrev State.Quiet (s : State) : Prop :=
  s.inProgress = false ∧ s.cmd = 0 ∧ s.din = [] ∧ s.dout = [] ∧ s.wout = []

/-- Both output streams are empty, as at the start of every transaction (10_state.md R14). -/
abbrev State.Fresh (s : State) : Prop := s.dout = [] ∧ s.wout = []

/-- LEN_MAX is unbounded, the case the rules of the spec are written for (00_scope.md R5). -/
abbrev State.Unbounded (s : State) : Prop := s.config.lenMax = none

/-- A stream of `n` bytes is within LEN_MAX (R5). -/
abbrev State.Admits (s : State) (n : Nat) : Prop := ∀ m ∈ s.config.lenMax, n ≤ m

/-- The host does nothing in this step. -/
abbrev State.HostWaits (s : State) : Prop := s.host.head?.getD .wait = .wait

/-- A transaction is in progress and the host leaves the unit to complete it (Table T162). -/
abbrev State.Serving (s : State) : Prop := s.inProgress = true ∧ s.HostWaits

/-- The state with the host's act of this step taken from its list. -/
def State.tick (s : State) : State := { s with host := s.host.tail }

/-- The transaction of `s` has completed with the response `r`: the response is delivered, the unit is idle and holds
nothing, and nothing else has changed (10_state.md R16; 60_exceptions.md R137). That an idle unit's `CMD` is written
as zero is the model's choice (log entry 1). -/
def State.reply (s : State) (r : Response) : State :=
  { inProgress := false, cmd := 0, din := [], dout := [], wout := [], config := s.config, host := s.host,
    responses := s.responses ++ [r] }

/-- The response of a fault: its code and two empty streams (R137). -/
def faulted (f : FaultCode) : Response := { stat := .fault f, dout := [], wout := [] }

/-- The response of a success (R56). -/
def replied (dout : List Byte) (wout : List Word) : Response := { stat := .ok, dout := dout, wout := wout }

/-- The number `1 << dsel` of a depth (30_encoding.md R55). -/
def depthBits (d : Depth) : Nat := 1 <<< d.selector.toNat

/-- Table T35: the lengths of `DIN` an operation accepts. -/
def lengthAccepted : Instr → Nat → Bool
  | .i2b .., n => n == 0
  | .s2b .., n => n == 0
  | .b2i .., n => n == 4
  | .b2ia .., n => n % 4 == 0
  | .u8 .., n => n == 0
  | .pack _ d, n => n % (16 / depthBits d) == 0
  | .cbw .., _ => true
  | .csw .., n => n == 13
  | .regcmd .., n => n == 0

/-- Table T56: the number of bytes on `DOUT` for an accepted `DIN` of `n` bytes. -/
def doutLength : Instr → Nat → Nat
  | .i2b .., _ => 4
  | .s2b .., _ => 2
  | .b2i .., _ => 0
  | .b2ia .., _ => 0
  | .u8 .., _ => 1
  | .pack _ d, n => n / (8 / depthBits d)
  | .cbw .., n => 15 + n
  | .csw .., _ => 5
  | .regcmd .., _ => 16

/-- Table T56: the number of words on `WOUT` for an accepted `DIN` of `n` bytes. -/
def woutLength : Instr → Nat → Nat
  | .i2b .., _ => 0
  | .s2b .., _ => 0
  | .b2i .., _ => 1
  | .b2ia .., n => n / 4
  | .u8 .., _ => 0
  | .pack .., _ => 0
  | .cbw .., _ => 0
  | .csw .., _ => 2
  | .regcmd .., _ => 0

/-- The `op` field is one of the reserved values 0 and 10 to 15 (R60). -/
def reservedOp (c : Cmd) : Bool := (c.extractLsb' 0 4).toNat == 0 || decide (10 ≤ (c.extractLsb' 0 4).toNat)

/-- The operation an `op` field of 1 to 9 names (R52). -/
abbrev namesOp (c : Cmd) (o : Op) : Prop := c.extractLsb' 0 4 = o.number

/-- Byte `i` of a stream; the statements ask only for bytes the stream has. -/
def byteAt (bs : List Byte) (i : Nat) : Byte := bs.getD i 0

/-- A list of bytes with the bytes `2k` and `2k+1` exchanged for every `k` (R96 d). -/
def swapPairs : List Byte → List Byte
  | a :: b :: rest => b :: a :: swapPairs rest
  | [a] => [a]
  | [] => []

/-- A word with its four bytes reversed (41_endian_codec.md R75). -/
def byteReversed (w : Word) : Word :=
  w.extractLsb' 0 8 ++ w.extractLsb' 8 8 ++ w.extractLsb' 16 8 ++ w.extractLsb' 24 8

/-- The other byte order. -/
def otherOrder : ByteOrder → ByteOrder
  | .big => .little
  | .little => .big

/-- The invariant of the machine: between transactions the unit holds nothing (R16, R18, R163); no output is pending
between steps (R38: a transaction is atomic); every response delivered with a fault code has empty streams (R137); and
every delivered `DOUT` is within LEN_MAX (R35). -/
abbrev State.Inv (s : State) : Prop :=
  (s.inProgress = false → s.Quiet) ∧ s.Fresh ∧
    (∀ r ∈ s.responses, r.stat ≠ .ok → r.dout = [] ∧ r.wout = []) ∧ (∀ r ∈ s.responses, s.Admits r.dout.length)

/-- The names R59 and R64 give an operation: its mnemonic and D0's name of it, where D0 has one. -/
def writtenNames : Op → List String
  | .i2b => ["I2B", "intToBytes"]
  | .s2b => ["S2B", "shortToBytes"]
  | .b2i => ["B2I", "bytesToInt"]
  | .b2ia => ["B2IA", "bytesToIntArray"]
  | .u8 => ["U8", "uint8"]
  | .pack => ["PACK", "pack"]
  | .cbw => ["CBW"]
  | .csw => ["CSW"]
  | .regcmd => ["REGCMD"]

/-- The written byte order (R63). -/
def orderQualifier : ByteOrder → Qualifier
  | .big => .be
  | .little => .le

/-- The written depth (R63). -/
def depthQualifier : Depth → Qualifier
  | .d1 => .d1
  | .d2 => .d2
  | .d4 => .d4
  | .d8 => .d8

/-- The qualifiers R63 writes an instruction with: a byte order where one is required and nowhere else; a depth on PACK,
and `.FLIP` exactly with the flip. That the depth stands first is the model's choice (log entry 13). -/
def writtenQualifiers : Instr → List Qualifier
  | .i2b be _ => [orderQualifier be]
  | .s2b be _ => [orderQualifier be]
  | .b2i be => [orderQualifier be]
  | .b2ia be => [orderQualifier be]
  | .u8 _ => []
  | .pack flip d => depthQualifier d :: if flip then [.flip] else []
  | .cbw be .. => [orderQualifier be]
  | .csw be => [orderQualifier be]
  | .regcmd .. => []

/-- The operands R63 writes an instruction with, in its order, each with its value as a number. -/
def writtenOperands : Instr → List (OperandName × Nat)
  | .i2b _ v => [(.value, v.toNat)]
  | .s2b _ v => [(.value, v.toNat)]
  | .b2i _ => []
  | .b2ia _ => []
  | .u8 v => [(.value, v.toNat)]
  | .pack .. => []
  | .cbw _ flags lun cmdlen tag dtl =>
    [(.tag, tag.toNat), (.dtl, dtl.toNat), (.flags, flags.toNat), (.lun, lun.toNat), (.cmdlen, cmdlen.toNat)]
  | .csw _ => []
  | .regcmd code address lov => [(.addr, address.toNat), (.code, code.toNat), (.lov, lov.toNat)]

/-- A run the host keeps its duties in: it issues each transaction and waits for its completion before the next
(R155, R163). -/
def dutifulHost (txs : List (Cmd × List Byte)) : List HostAct := txs.flatMap (fun t => [.issue t.1 t.2, .wait])

end Sys2Proof.Machine
end

