-- ==== Sys2Proof/Certificates/Slice0/Obligations.lean ====
section
/-! DEFINITION. The statements for the provers. Each docstring names the rule of the spec it formalises. `Admits` and
`Unbounded` speak of the open parameter LEN_MAX (00_scope.md R5); everything else holds for every LEN_MAX. Wherever a
statement writes a completed state as `s.reply r`, the idle fields it leaves (`CMD` zero, the streams empty) and the list
of responses it adds to are the model's choice (log entries 1, 3), whatever rule gives the response `r`. -/

open Sys2Proof Sys2Proof.Machine

/-! ### The descriptor -/

/-- A few descriptors written out from Tables T51 and T53 (R50, R51, R53), one or more for each family, decode to what
they stand for. -/
def Obligations.KnownWordsDecode : Prop :=
  decode 0x000000001234567800000011 = .instr (.i2b .big 0x12345678) ∧
  decode 0x000000000000123400000002 = .instr (.s2b .little 0x1234) ∧
  decode 0x0000000000000000000000A6 = .instr (.pack true .d4) ∧
  decode 0xA0B0C0D00102030410EE7F17 = .instr (.cbw .big 0x7F 0xEE 0x10 0x01020304 0xA0B0C0D0) ∧
  decode 0x0000000A0000006400009609 = .instr (.regcmd 0x96 0x64 0x0A) ∧
  decode 0x000000000000000000000000 = .illegalOperation ∧
  decode 0x000000000001000000000012 = .illegalField

/-- R53, R57: decoding the encoding of any instruction gives it back, with every operand at every value. -/
def Obligations.DecodeEncode : Prop := ∀ i : Instr, decode (encode i) = .instr i

/-- R61, "The unit never ignores a descriptor bit": the encoding of what a descriptor decodes to is that descriptor. -/
def Obligations.EncodeDecode : Prop := ∀ (c : Cmd) (i : Instr), decode c = .instr i → encode i = c

/-- R62: the three cases of decoding, each with exactly the descriptors it has, and the nine rows disjoint: a reserved
`op` field (R60), a defined one with `(c & mask) ≠ match` (R61), or one row of Table T53. -/
def Obligations.DecodingIsTotal : Prop :=
  (∀ c, decode c = .illegalOperation ↔ reservedOp c = true) ∧
  (∀ c, decode c = .illegalField ↔ ∃ o, namesOp c o ∧ c &&& o.mask ≠ o.pattern) ∧
  (∀ (c : Cmd) (o : Op), c &&& o.mask = o.pattern ↔ ∃ i, decode c = .instr i ∧ i.op = o) ∧
  (∀ (c : Cmd) (o o' : Op), c &&& o.mask = o.pattern → c &&& o'.mask = o'.pattern → o = o')

/-- R53, R61: for a descriptor whose `op` field names the operation, `(c & mask) = match` exactly when every field or
part of a field that Table T53 marks mbz is zero; the two readings of T53 agree. -/
def Obligations.MaskAgreesWithFields : Prop :=
  ∀ (c : Cmd) (o : Op), namesOp c o → (c &&& o.mask = o.pattern ↔ (fieldsOf c).wellFormed o = true)

/-! ### Host and unit -/

/-- While a transaction is in progress and the host waits, a step is the execution of the instruction its captured
descriptor decodes to (R40: each atomically; R43: captured whole), after the host's wait is taken from its list. That one
step is the whole execution, and that it takes a wait from a list of the host's acts, is the model's choice (log
entry 3). -/
def Obligations.StepRunsTheDecodedInstruction : Prop :=
  ∀ (s : State) (i : Instr), s.Serving → decode s.cmd = .instr i → step s = exec i s.tick

/-- R14, R43, R157: an issue to an idle unit captures the descriptor and the input stream and starts with both output
streams empty; nothing is delivered. That an issue is a step of its own and the host's acts are a list is the model's
choice (log entry 3). -/
def Obligations.IssueCapturesTheTransaction : Prop :=
  ∀ (s : State) (c : Cmd) (d : List Byte) (rest : List HostAct), s.inProgress = false → s.host = .issue c d :: rest →
    step s = .next { inProgress := true, cmd := c, din := d, dout := [], wout := [], config := s.config, host := rest,
                     responses := s.responses }

/-- R155, R41, U6: an issue while a transaction is in progress has no move. The named stuck state is the model's form of
it (log entry 4). -/
def Obligations.OverlappingIssueHasNoMove : Prop :=
  ∀ (s : State) (c : Cmd) (d : List Byte) (rest : List HostAct), s.inProgress = true → s.host = .issue c d :: rest →
    step s = .fault .overlappingIssue

/-- R150, R151: a reset, during a transaction or not, leaves the unit idle and holding nothing and delivers no response;
the host's list and LEN_MAX stay. The values of an idle unit's fields and what a reset leaves of the host's side are the
model's choice (log entries 1, 11), and so is the host's list (log entry 3). -/
def Obligations.ResetAbandonsTheTransaction : Prop :=
  ∀ (s : State) (rest : List HostAct), s.host = .reset :: rest →
    step s = .next { inProgress := false, cmd := 0, din := [], dout := [], wout := [], config := s.config, host := rest,
                     responses := s.responses }

/-- R135, R163: nothing happens in an idle unit while the host waits. That this is a step with a next state, in which the
host's list moves on, is the model's choice (log entries 3, 12). -/
def Obligations.IdleUnitDoesNothing : Prop :=
  ∀ s : State, s.inProgress = false → s.HostWaits → step s = .next s.tick

/-- R19, R150: right after reset the unit is idle and holds nothing. That the idle fields read as zero and empty is the
model's choice (log entry 1), and so is that the host has received no response at that point (log entry 3): no rule of
the spec says so, and the reset act of `ResetAbandonsTheTransaction` keeps the responses delivered before it. -/
def Obligations.ResetStateIsIdle : Prop := State.reset.Quiet ∧ State.reset.responses = []

/-- R130, R131, R132, R133, R136: every transaction in progress completes, when the host waits, with exactly one code:
1 for a reserved `op`, else 2 for a non-zero must-be-zero field, else 3 for a `DIN` whose length the operation does not
accept, else 0, never another; and a faulting one with both streams empty (R137). For LEN_MAX unbounded. That it
completes in one step, which takes a wait from the host's list, is the model's choice (log entry 3). -/
def Obligations.CompletionCodeAndPriority : Prop :=
  ∀ s : State, s.Serving → s.Unbounded →
    ∃ r : Response, step s = .next (s.tick.reply r) ∧
      (reservedOp s.cmd = true → r.stat.code = 1) ∧
      (∀ o, namesOp s.cmd o → (fieldsOf s.cmd).wellFormed o = false → r.stat.code = 2) ∧
      (∀ i, decode s.cmd = .instr i → lengthAccepted i s.din.length = false → r.stat.code = 3) ∧
      (∀ i, decode s.cmd = .instr i → lengthAccepted i s.din.length = true → r.stat.code = 0) ∧
      r.stat.code.toNat ≤ 3 ∧ (r.stat.code ≠ 0 → r.dout = [] ∧ r.wout = [])

/-- R60, R61, R137: a descriptor that selects no operation, or has a non-zero must-be-zero bit, completes with its fault
and empty streams whatever `DIN` and the output streams are. That it does so even where `DIN` is beyond a finite LEN_MAX,
which R35 refuses, is the model's choice (log entry 5), and so is its one step with the host's list (log entry 3). -/
def Obligations.IllegalDescriptorRaises : Prop :=
  ∀ s : State, s.Serving →
    (reservedOp s.cmd = true → step s = .next (s.tick.reply (faulted .illegalOperation))) ∧
    (∀ o, namesOp s.cmd o → (fieldsOf s.cmd).wellFormed o = false →
      step s = .next (s.tick.reply (faulted .illegalField)))

/-! ### Results of the instructions -/

/-- R32: decoding undoes encoding and encoding undoes decoding in each byte order, and a decoded word is the number the
rule gives. -/
def Obligations.ByteOrderRoundTrip : Prop :=
  (∀ (w : Word) (be : ByteOrder), dec32 (enc32 w be) be = w) ∧
  (∀ (bs : Vector Byte 4) (be : ByteOrder), enc32 (dec32 bs be) be = bs) ∧
  (∀ bs : Vector Byte 4, (dec32 bs .big).toNat =
    bs[0].toNat * 2 ^ 24 + bs[1].toNat * 2 ^ 16 + bs[2].toNat * 2 ^ 8 + bs[3].toNat) ∧
  (∀ bs : Vector Byte 4, (dec32 bs .little).toNat =
    bs[3].toNat * 2 ^ 24 + bs[2].toNat * 2 ^ 16 + bs[1].toNat * 2 ^ 8 + bs[0].toNat)

/-- R70, I2B: the encoding, the four result bytes in either order, the length fault. -/
def Obligations.I2bSerialisesAWord : Prop :=
  (∀ c : Cmd, c &&& 0xFFFFFFFF00000000FFFFFFEF = 0x000000000000000000000001 →
    decode c = .instr (.i2b (if c.getLsbD 4 then .big else .little) (c.extractLsb' 32 32))) ∧
  (∀ c : Cmd, c.extractLsb' 0 4 = 1 → c &&& 0xFFFFFFFF00000000FFFFFFEF ≠ 0x000000000000000000000001 →
    decode c = .illegalField) ∧
  (∀ (s : State) (v : Word), s.Fresh → s.din = [] → s.Admits 4 →
    exec (.i2b .big v) s = .next (s.reply (replied
      [v.extractLsb' 24 8, v.extractLsb' 16 8, v.extractLsb' 8 8, v.extractLsb' 0 8] [])) ∧
    exec (.i2b .little v) s = .next (s.reply (replied
      [v.extractLsb' 0 8, v.extractLsb' 8 8, v.extractLsb' 16 8, v.extractLsb' 24 8] []))) ∧
  (∀ (s : State) (be : ByteOrder) (v : Word), s.din ≠ [] → s.Admits s.din.length →
    exec (.i2b be v) s = .next (s.reply (faulted .lengthError)))

/-- R71, S2B: the encoding, the two result bytes in either order, the length fault. -/
def Obligations.S2bSerialisesAHalf : Prop :=
  (∀ c : Cmd, c &&& 0xFFFFFFFFFFFF0000FFFFFFEF = 0x000000000000000000000002 →
    decode c = .instr (.s2b (if c.getLsbD 4 then .big else .little) (c.extractLsb' 32 16))) ∧
  (∀ c : Cmd, c.extractLsb' 0 4 = 2 → c &&& 0xFFFFFFFFFFFF0000FFFFFFEF ≠ 0x000000000000000000000002 →
    decode c = .illegalField) ∧
  (∀ (s : State) (v : Half), s.Fresh → s.din = [] → s.Admits 2 →
    exec (.s2b .big v) s = .next (s.reply (replied [v.extractLsb' 8 8, v.extractLsb' 0 8] [])) ∧
    exec (.s2b .little v) s = .next (s.reply (replied [v.extractLsb' 0 8, v.extractLsb' 8 8] []))) ∧
  (∀ (s : State) (be : ByteOrder) (v : Half), s.din ≠ [] → s.Admits s.din.length →
    exec (.s2b be v) s = .next (s.reply (faulted .lengthError)))

/-- R72, B2I: the encoding, the word of exactly four bytes in either order, the length fault. -/
def Obligations.B2iReadsAWord : Prop :=
  (∀ c : Cmd, c &&& 0xFFFFFFFFFFFFFFFFFFFFFFEF = 0x000000000000000000000003 →
    decode c = .instr (.b2i (if c.getLsbD 4 then .big else .little))) ∧
  (∀ c : Cmd, c.extractLsb' 0 4 = 3 → c &&& 0xFFFFFFFFFFFFFFFFFFFFFFEF ≠ 0x000000000000000000000003 →
    decode c = .illegalField) ∧
  (∀ (s : State) (b0 b1 b2 b3 : Byte), s.Fresh → s.din = [b0, b1, b2, b3] → s.Admits 4 →
    exec (.b2i .big) s = .next (s.reply (replied [] [b0 ++ b1 ++ b2 ++ b3])) ∧
    exec (.b2i .little) s = .next (s.reply (replied [] [b3 ++ b2 ++ b1 ++ b0]))) ∧
  (∀ (s : State) (be : ByteOrder), s.din.length ≠ 4 → s.Admits s.din.length →
    exec (.b2i be) s = .next (s.reply (faulted .lengthError)))

/-- R73, B2IA: the encoding, one word for each four bytes in input order and either byte order, never a truncated
result. -/
def Obligations.B2iaReadsConsecutiveWords : Prop :=
  (∀ c : Cmd, c &&& 0xFFFFFFFFFFFFFFFFFFFFFFEF = 0x000000000000000000000004 →
    decode c = .instr (.b2ia (if c.getLsbD 4 then .big else .little))) ∧
  (∀ c : Cmd, c.extractLsb' 0 4 = 4 → c &&& 0xFFFFFFFFFFFFFFFFFFFFFFEF ≠ 0x000000000000000000000004 →
    decode c = .illegalField) ∧
  (∀ s : State, s.Fresh → s.din.length % 4 = 0 → s.Admits s.din.length →
    ∃ big little : List Word,
      exec (.b2ia .big) s = .next (s.reply (replied [] big)) ∧
      exec (.b2ia .little) s = .next (s.reply (replied [] little)) ∧
      big.length = s.din.length / 4 ∧ little.length = s.din.length / 4 ∧
      ∀ k < s.din.length / 4,
        big[k]? = some (byteAt s.din (4 * k) ++ byteAt s.din (4 * k + 1) ++ byteAt s.din (4 * k + 2) ++
          byteAt s.din (4 * k + 3)) ∧
        little[k]? = some (byteAt s.din (4 * k + 3) ++ byteAt s.din (4 * k + 2) ++ byteAt s.din (4 * k + 1) ++
          byteAt s.din (4 * k))) ∧
  (∀ (s : State) (be : ByteOrder), s.din.length % 4 ≠ 0 → s.Admits s.din.length →
    exec (.b2ia be) s = .next (s.reply (faulted .lengthError)))

/-- R74, U8: the encoding, the one byte, the length fault. -/
def Obligations.U8ProducesOneByte : Prop :=
  (∀ c : Cmd, c &&& 0xFFFFFFFFFFFFFF00FFFFFFFF = 0x000000000000000000000005 →
    decode c = .instr (.u8 (c.extractLsb' 32 8))) ∧
  (∀ c : Cmd, c.extractLsb' 0 4 = 5 → c &&& 0xFFFFFFFFFFFFFF00FFFFFFFF ≠ 0x000000000000000000000005 →
    decode c = .illegalField) ∧
  (∀ (s : State) (v : Byte), s.Fresh → s.din = [] → s.Admits 1 →
    exec (.u8 v) s = .next (s.reply (replied [v] []))) ∧
  (∀ (s : State) (v : Byte), s.din ≠ [] → s.Admits s.din.length →
    exec (.u8 v) s = .next (s.reply (faulted .lengthError)))

/-- R92, R93, R94, PACK: the encoding; the output length; every bit of every output byte: bit `t` of field `j` of the byte
`A` of word `k` is set exactly when sample `k*step + j` is not zero, of `B` when sample `k*step + halfstep + j` is not
zero, with `A` at offset `2k` and `B` at `2k+1` without flip and exchanged with it; the length fault. At depth 8 it rests
on the spec's reading of C1 (`Config.depth8Byte`, U7, log entry 6). -/
def Obligations.PackSetsTheBitsOfNonzeroSamples : Prop :=
  (∀ c : Cmd, c &&& 0xFFFFFFFFFFFFFFFFFFFFFF1F = 0x000000000000000000000006 →
    ∃ d : Depth, depthBits d = 1 <<< (c.extractLsb' 6 2).toNat ∧ decode c = .instr (.pack (c.getLsbD 5) d)) ∧
  (∀ c : Cmd, c.extractLsb' 0 4 = 6 → c &&& 0xFFFFFFFFFFFFFFFFFFFFFF1F ≠ 0x000000000000000000000006 →
    decode c = .illegalField) ∧
  (∀ (s : State) (flip : Bool) (d : Depth) (step halfstep : Nat), step = 16 / depthBits d → halfstep = 8 / depthBits d →
    s.Fresh → s.din.length % step = 0 → s.Admits s.din.length →
    ∃ out : List Byte, exec (.pack flip d) s = .next (s.reply (replied out [])) ∧
      out.length = s.din.length / halfstep ∧
      ∀ k < s.din.length / step, ∀ j < halfstep, ∀ t < depthBits d,
        (byteAt out (2 * k + if flip then 1 else 0)).getLsbD (depthBits d * j + t) =
          (byteAt s.din (k * step + j) != 0) ∧
        (byteAt out (2 * k + if flip then 0 else 1)).getLsbD (depthBits d * j + t) =
          (byteAt s.din (k * step + halfstep + j) != 0)) ∧
  (∀ (s : State) (flip : Bool) (d : Depth), s.din.length % (16 / depthBits d) ≠ 0 → s.Admits s.din.length →
    exec (.pack flip d) s = .next (s.reply (faulted .lengthError)))

/-- R110, R111, R112, R113, CBW: the encoding; the 15 + N bytes for every `DIN`, with `flags`, `logical_unit_number` and
`command_length` copied whatever they are and no length fault. -/
def Obligations.CbwBuildsTheWrapper : Prop :=
  (∀ c : Cmd, c &&& 0x0000000000000000000000EF = 0x000000000000000000000007 →
    decode c = .instr (.cbw (if c.getLsbD 4 then .big else .little) (c.extractLsb' 8 8) (c.extractLsb' 16 8)
      (c.extractLsb' 24 8) (c.extractLsb' 32 32) (c.extractLsb' 64 32))) ∧
  (∀ c : Cmd, c.extractLsb' 0 4 = 7 → c &&& 0x0000000000000000000000EF ≠ 0x000000000000000000000007 →
    decode c = .illegalField) ∧
  (∀ (s : State) (flags lun cmdlen : Byte) (tag dtl : Word), s.Fresh → s.Admits (15 + s.din.length) →
    exec (.cbw .big flags lun cmdlen tag dtl) s = .next (s.reply (replied
      ([0x55, 0x53, 0x42, 0x43,
        tag.extractLsb' 24 8, tag.extractLsb' 16 8, tag.extractLsb' 8 8, tag.extractLsb' 0 8,
        dtl.extractLsb' 24 8, dtl.extractLsb' 16 8, dtl.extractLsb' 8 8, dtl.extractLsb' 0 8,
        flags, lun, cmdlen] ++ s.din) [])) ∧
    exec (.cbw .little flags lun cmdlen tag dtl) s = .next (s.reply (replied
      ([0x55, 0x53, 0x42, 0x43,
        tag.extractLsb' 0 8, tag.extractLsb' 8 8, tag.extractLsb' 16 8, tag.extractLsb' 24 8,
        dtl.extractLsb' 0 8, dtl.extractLsb' 8 8, dtl.extractLsb' 16 8, dtl.extractLsb' 24 8,
        flags, lun, cmdlen] ++ s.din) [])))

/-- R114, R115, R116, CSW: the encoding; any 13 bytes are split into signature, tag, residue and status with nothing
checked; the length fault. -/
def Obligations.CswSplitsThirteenBytes : Prop :=
  (∀ c : Cmd, c &&& 0xFFFFFFFFFFFFFFFFFFFFFFEF = 0x000000000000000000000008 →
    decode c = .instr (.csw (if c.getLsbD 4 then .big else .little))) ∧
  (∀ c : Cmd, c.extractLsb' 0 4 = 8 → c &&& 0xFFFFFFFFFFFFFFFFFFFFFFEF ≠ 0x000000000000000000000008 →
    decode c = .illegalField) ∧
  (∀ (s : State) (g0 g1 g2 g3 t0 t1 t2 t3 r0 r1 r2 r3 status : Byte), s.Fresh →
    s.din = [g0, g1, g2, g3, t0, t1, t2, t3, r0, r1, r2, r3, status] → s.Admits 13 →
    exec (.csw .big) s = .next (s.reply (replied [g0, g1, g2, g3, status]
      [t0 ++ t1 ++ t2 ++ t3, r0 ++ r1 ++ r2 ++ r3])) ∧
    exec (.csw .little) s = .next (s.reply (replied [g0, g1, g2, g3, status]
      [t3 ++ t2 ++ t1 ++ t0, r3 ++ r2 ++ r1 ++ r0]))) ∧
  (∀ (s : State) (be : ByteOrder), s.din.length ≠ 13 → s.Admits s.din.length →
    exec (.csw be) s = .next (s.reply (faulted .lengthError)))

/-- R117, R118, REGCMD: the encoding; the 16 bytes, big-endian always; the length fault. -/
def Obligations.RegcmdBuildsSixteenBytes : Prop :=
  (∀ c : Cmd, c &&& 0xFFFF000000000000FFFF00FF = 0x000000000000000000000009 →
    decode c = .instr (.regcmd (c.extractLsb' 8 8) (c.extractLsb' 32 32) (c.extractLsb' 64 16))) ∧
  (∀ c : Cmd, c.extractLsb' 0 4 = 9 → c &&& 0xFFFF000000000000FFFF00FF ≠ 0x000000000000000000000009 →
    decode c = .illegalField) ∧
  (∀ (s : State) (code : Byte) (address : Word) (lov : Half), s.Fresh → s.din = [] → s.Admits 16 →
    exec (.regcmd code address lov) s = .next (s.reply (replied
      [0xFE, 0x00, address.extractLsb' 24 8, address.extractLsb' 16 8, address.extractLsb' 8 8, address.extractLsb' 0 8,
       code, lov.extractLsb' 8 8, lov.extractLsb' 0 8, 0, 0, 0, 0, 0, 0, 0] []))) ∧
  (∀ (s : State) (code : Byte) (address : Word) (lov : Half), s.din ≠ [] → s.Admits s.din.length →
    exec (.regcmd code address lov) s = .next (s.reply (faulted .lengthError)))

/-- R35 (Table T35) and R56 (Table T56), over every instruction: beyond LEN_MAX it is refused; within it a length the
table does not list raises `LengthError` before anything is emitted; a listed one completes with `OK` and result streams
of the table's lengths, or is refused where `DOUT` would exceed LEN_MAX. That a `DIN` beyond LEN_MAX is refused even where
its length is also a wrong one is the model's choice (log entry 5). -/
def Obligations.LengthRuleOfEveryInstruction : Prop :=
  ∀ (i : Instr) (s : State), s.Fresh →
    (¬ s.Admits s.din.length → exec i s = .refused .exceedsLenMax) ∧
    (s.Admits s.din.length → lengthAccepted i s.din.length = false →
      exec i s = .next (s.reply (faulted .lengthError))) ∧
    (s.Admits s.din.length → lengthAccepted i s.din.length = true → ¬ s.Admits (doutLength i s.din.length) →
      exec i s = .refused .exceedsLenMax) ∧
    (s.Admits s.din.length → lengthAccepted i s.din.length = true → s.Admits (doutLength i s.din.length) →
      ∃ dout wout, exec i s = .next (s.reply (replied dout wout)) ∧
        dout.length = doutLength i s.din.length ∧ wout.length = woutLength i s.din.length)

/-! ### Laws -/

/-- R75: I2B then B2I in one byte order returns the word, in the other the byte-reversed word; B2I then I2B returns the
bytes; B2IA on a concatenation of four-byte sequences returns the words B2I returns on each, in order. -/
def Obligations.CodecRoundTrips : Prop :=
  (∀ (s t : State) (w : Word) (be : ByteOrder), s.Fresh → t.Fresh → s.Unbounded → t.Unbounded → s.din = [] →
    ∃ bs, exec (.i2b be w) s = .next (s.reply (replied bs [])) ∧
      exec (.b2i be) { t with din := bs } = .next (t.reply (replied [] [w])) ∧
      exec (.b2i (otherOrder be)) { t with din := bs } = .next (t.reply (replied [] [byteReversed w]))) ∧
  (∀ (s t : State) (be : ByteOrder), s.Fresh → t.Fresh → s.Unbounded → t.Unbounded → s.din.length = 4 → t.din = [] →
    ∃ w, exec (.b2i be) s = .next (s.reply (replied [] [w])) ∧
      exec (.i2b be w) t = .next (t.reply (replied s.din []))) ∧
  (∀ (s : State) (be : ByteOrder) (groups : List (List Byte)), s.Fresh → s.Unbounded → (∀ g ∈ groups, g.length = 4) →
    ∃ ws, exec (.b2ia be) { s with din := groups.flatten } = .next (s.reply (replied [] ws)) ∧
      ws.length = groups.length ∧
      ∀ (k : Nat) (g : List Byte) (w : Word), groups[k]? = some g → ws[k]? = some w →
        exec (.b2i be) { s with din := g } = .next (s.reply (replied [] [w])))

/-- R96 (b): all samples 255 pack to bytes 0xFF, all samples 0 to bytes 0x00, at every depth and either flip, two bytes
for each word. At depth 8 it goes through `Config.depth8Byte` (U7, log entry 6), only at 0 and 255, where both readings of
C1 agree. -/
def Obligations.PackOfWhiteAndBlack : Prop :=
  ∀ (s : State) (flip : Bool) (d : Depth) (words : Nat), s.Fresh → s.Unbounded →
    exec (.pack flip d) { s with din := List.replicate (words * (16 / depthBits d)) 255 } =
      .next (s.reply (replied (List.replicate (2 * words) 0xFF) [])) ∧
    exec (.pack flip d) { s with din := List.replicate (words * (16 / depthBits d)) 0 } =
      .next (s.reply (replied (List.replicate (2 * words) 0x00) []))

/-- R95, R96 (c): the response of PACK depends on the samples only through which of them are zero, whatever their
number. At depth 8 it rests on the spec's reading of C1 (`Config.depth8Byte`, U7, log entry 6); under the other reading,
a copy of the sample, it would be false there. -/
def Obligations.PackIsBlindToMagnitude : Prop :=
  ∀ (s : State) (flip : Bool) (d : Depth) (xs ys : List Byte), s.Unbounded →
    xs.map (fun x => x != 0) = ys.map (fun y => y != 0) →
    ∃ r, exec (.pack flip d) { s with din := xs } = .next (s.reply r) ∧
      exec (.pack flip d) { s with din := ys } = .next (s.reply r)

/-- R94, R96 (d): the flipped output is the unflipped one with the bytes `2k` and `2k+1` exchanged for every `k`, and
exchanging twice restores it. -/
def Obligations.PackFlipExchangesBytes : Prop :=
  ∀ (s : State) (d : Depth), s.Fresh → s.Unbounded → s.din.length % (16 / depthBits d) = 0 →
    ∃ out, exec (.pack false d) s = .next (s.reply (replied out [])) ∧
      exec (.pack true d) s = .next (s.reply (replied (swapPairs out) [])) ∧ swapPairs (swapPairs out) = out

/-- R96 (e): PACK of a concatenation of two inputs of whole words is the concatenation of the PACKs. -/
def Obligations.PackOfAConcatenation : Prop :=
  ∀ (s : State) (flip : Bool) (d : Depth) (xs ys : List Byte), s.Fresh → s.Unbounded →
    xs.length % (16 / depthBits d) = 0 → ys.length % (16 / depthBits d) = 0 →
    ∃ a b, exec (.pack flip d) { s with din := xs } = .next (s.reply (replied a [])) ∧
      exec (.pack flip d) { s with din := ys } = .next (s.reply (replied b [])) ∧
      exec (.pack flip d) { s with din := xs ++ ys } = .next (s.reply (replied (a ++ b) []))

/-- R96 (f), U7: at depth 8 an even number of samples packs to one byte for each, 0xFF for a sample that is not zero and
0x00 for zero, the pairs exchanged with the flip. It rests on the reading of C1 in `Config.depth8Byte` (log entry 6). -/
def Obligations.PackAtDepthEightBinarises : Prop :=
  ∀ s : State, s.Fresh → s.Unbounded → s.din.length % 2 = 0 →
    exec (.pack false .d8) s = .next (s.reply (replied (s.din.map (fun x => if x = 0 then 0x00 else 0xFF)) [])) ∧
    exec (.pack true .d8) s =
      .next (s.reply (replied (swapPairs (s.din.map (fun x => if x = 0 then 0x00 else 0xFF))) []))

/-- R78: the framer's integer fields are exactly the codec's serialisations: `tag` and `data_transfer_length` of a CBW
are the I2B bytes of the transaction's order, the words of a CSW are what B2I reads at offsets 4 and 8, `address` and
`length_or_value` of a Register Command are the big-endian I2B and S2B bytes. -/
def Obligations.FramerUsesTheCodec : Prop :=
  ∀ s : State, s.Fresh → s.Unbounded →
    (∀ (be : ByteOrder) (flags lun cmdlen : Byte) (tag dtl : Word),
      ∃ out tagBytes dtlBytes,
        exec (.cbw be flags lun cmdlen tag dtl) s = .next (s.reply (replied out [])) ∧
        exec (.i2b be tag) { s with din := [] } = .next (s.reply (replied tagBytes [])) ∧
        exec (.i2b be dtl) { s with din := [] } = .next (s.reply (replied dtlBytes [])) ∧
        (out.drop 4).take 4 = tagBytes ∧ (out.drop 8).take 4 = dtlBytes) ∧
    (∀ be : ByteOrder, s.din.length = 13 →
      ∃ out tag residue,
        exec (.csw be) s = .next (s.reply (replied out [tag, residue])) ∧
        exec (.b2i be) { s with din := (s.din.drop 4).take 4 } = .next (s.reply (replied [] [tag])) ∧
        exec (.b2i be) { s with din := (s.din.drop 8).take 4 } = .next (s.reply (replied [] [residue]))) ∧
    (∀ (code : Byte) (address : Word) (lov : Half), s.din = [] →
      ∃ out addressBytes lovBytes,
        exec (.regcmd code address lov) s = .next (s.reply (replied out [])) ∧
        exec (.i2b .big address) s = .next (s.reply (replied addressBytes [])) ∧
        exec (.s2b .big lov) s = .next (s.reply (replied lovBytes [])) ∧
        (out.drop 2).take 4 = addressBytes ∧ (out.drop 7).take 2 = lovBytes)

/-- R7, R58: the pattern of an integer of `n` bits reads back as that integer; a negative one is passed as `v + 2^n`; the
signed reading is `v` or `v - 2^n`. PRESUMED by the spec (G1, log entry 8). -/
def Obligations.SignedValuesRoundTrip : Prop :=
  ∀ (n : Nat) (v : Int), 0 < n → -(2 ^ (n - 1)) ≤ v → v < 2 ^ (n - 1) →
    sext (patternOf n v) = v ∧ (zext (patternOf n v) : Int) = if v < 0 then v + 2 ^ n else v

/-- R63, R64, R57, U5: an accepted line gives the descriptor of exactly the instruction it writes: the operation is the one
its mnemonic or D0's name of it stands for, the byte order or the depth and the flip are its qualifiers and it has no
other, the operands are its numbers under their names, unmasked, and the input bytes are the numbers it lists. The forms
R63 leaves open are the model's choice (log entry 13). -/
def Obligations.AssemblerIsSound : Prop :=
  ∀ (l : AsmLine) (c : Cmd) (din : List Byte), l.assemble = some (c, din) →
    ∃ i : Instr, decode c = .instr i ∧ encode i = c ∧
      Op.ofName l.mnemonic = some i.op ∧ l.mnemonic ∈ writtenNames i.op ∧
      l.qualifiers = writtenQualifiers i ∧ l.operands = writtenOperands i ∧
      din.map (fun b => b.toNat) = l.input

/-- R63: every instruction with every input stream can be written. -/
def Obligations.AssemblerIsComplete : Prop :=
  ∀ (i : Instr) (din : List Byte), ∃ l : AsmLine, l.assemble = some (encode i, din)

/-! ### The whole machine -/

/-- The frame of every instruction (R16, R38): one that answers a next state has delivered exactly one response after
those delivered before, leaves LEN_MAX and the host's list alone, and the unit holds nothing. That an idle unit's `CMD`
is written as zero, and the host's fields, are the model's choice (log entries 1, 3). -/
def Obligations.FrameOfEveryInstruction : Prop :=
  ∀ (i : Instr) (s t : State), exec i s = .next t →
    (∃ r, t.responses = s.responses ++ [r]) ∧ t.config = s.config ∧ t.host = s.host ∧ t.Quiet

/-- R8, R35: no instruction, in any state, reads `DIN` where it does not exist or stops in any other fault. -/
def Obligations.NoInstructionFaults : Prop := ∀ (i : Instr) (s : State) (f : Fault), exec i s ≠ .fault f

/-- R40 (c), R138: the response is a function of `CMD` and `DIN` alone: two transactions with equal `CMD` and equal `DIN`,
in any two states with one LEN_MAX, give equal responses or are both refused beyond LEN_MAX. The one step with the host's
list is the model's choice (log entry 3). -/
def Obligations.EqualTransactionsEqualResponses : Prop :=
  ∀ s t : State, s.Serving → t.Serving → s.Fresh → t.Fresh → s.config = t.config → s.cmd = t.cmd → s.din = t.din →
    (∃ r, step s = .next (s.tick.reply r) ∧ step t = .next (t.tick.reply r)) ∨
    (step s = .refused .exceedsLenMax ∧ step t = .refused .exceedsLenMax)

/-- R16, R38, R151: a step never takes back or changes a delivered response, and delivers at most one, only by completing
the transaction in progress; it never changes LEN_MAX. The list of responses and the steps are the model's choice (log
entry 3). -/
def Obligations.OnlyACompletionDelivers : Prop :=
  ∀ s t : State, step s = .next t → t.config = s.config ∧
    (t.responses = s.responses ∨
      (s.Serving ∧ t.inProgress = false ∧ ∃ r, t.responses = s.responses ++ [r]))

/-- The state after reset meets the invariant (R19, R150). Its idle values, and that the host has received no response,
are the model's choice (log entries 1, 3). -/
def Obligations.InvariantAtReset : Prop := State.reset.Inv

/-- Every step keeps the invariant (R16, R18, R35, R38, R137, R163). That an idle unit's `CMD` is written as zero, and the
host's fields, are the model's choice (log entries 1, 3). -/
def Obligations.EveryStepKeepsTheInvariant : Prop := ∀ s t : State, s.Inv → step s = .next t → t.Inv

/-- R163, R40 (c): a host that issues any finite sequence of transactions, each after the completion of the one before,
gets from any idle unit with LEN_MAX unbounded one response for each, in order, and response `n` is a fixed function of
transaction `n` alone; at the end the unit is as at the start. That a transaction takes two steps, one for its issue and
one for its whole execution, and that the host is a list of acts, is the model's choice (log entry 3), and so are the
values an idle unit's fields have (log entry 1). -/
def Obligations.RunAnswersEachTransactionAlone : Prop :=
  ∃ respond : Cmd → List Byte → Response, ∀ (s : State) (txs : List (Cmd × List Byte)),
    s.Quiet → s.Unbounded → s.host = dutifulHost txs →
    Sys2Proof.core.run (2 * txs.length) s =
      .next { s with host := [], responses := s.responses ++ txs.map (fun tx => respond tx.1 tx.2) }
end

