-- ==== Sys2Proof/Laws/Assembler.lean ====
section
/-! SUPPORT. What each part of the assembler accepts, one lemma for each. -/

namespace Sys2Proof

open Sys2Proof.Machine

/-- `fit` answers the value of exactly the number written: nothing is masked (U5). -/
theorem fit_eq_some {n v : Nat} {x : BitVec n} : fit n v = some x ↔ v = x.toNat := by
  unfold fit
  split
  · rename_i h
    rw [Option.some_inj, ← BitVec.toNat_inj, BitVec.toNat_ofNat, Nat.mod_eq_of_lt h]
  · rename_i h
    have := x.isLt
    simp only [reduceCtorEq, false_iff]
    omega

/-- `mapM` of `fit` answers the bytes of exactly the numbers written. -/
theorem mapM_fit_eq_some {n : Nat} {vs : List Nat} {xs : List (BitVec n)} :
    vs.mapM (fit n) = some xs ↔ vs = xs.map (fun x => x.toNat) := by
  induction vs generalizing xs with
  | nil => cases xs <;> simp
  | cons v vs ih =>
    cases xs <;> simp [List.mapM_cons, Option.bind_eq_some_iff, fit_eq_some, ih]

/-- The byte order qualifier is required and alone (R63). -/
theorem orderOf_eq_some {qs : List Qualifier} {be : ByteOrder} : orderOf qs = some be ↔ qs = [orderQualifier be] := by
  unfold orderOf
  split <;> cases be <;> simp_all [orderQualifier]

/-- The depth of a depth qualifier (R63). -/
theorem depthOf_eq_some {q : Qualifier} {d : Depth} : depthOf q = some d ↔ q = depthQualifier d := by
  cases q <;> cases d <;> simp [depthOf, depthQualifier]

/-- The qualifiers of PACK (R63). -/
theorem packQualifiers_eq_some {qs : List Qualifier} {d : Depth} {flip : Bool} :
    packQualifiers qs = some (d, flip) ↔ qs = writtenQualifiers (.pack flip d) := by
  unfold packQualifiers
  split <;> cases flip <;> simp_all [depthOf_eq_some, writtenQualifiers]

/-- What a line is when it is accepted. -/
theorem AsmLine.assemble_eq_some {l : AsmLine} {c : Cmd} {din : List Byte} :
    l.assemble = some (c, din) ↔ ∃ o i, Op.ofName l.mnemonic = some o ∧
      assembleInstr o l.qualifiers l.operands = some i ∧ c = encode i ∧ l.input = din.map (fun b => b.toNat) := by
  simp only [AsmLine.assemble, Option.bind_eq_bind, Option.bind_eq_some_iff, Option.pure_def, Option.some.injEq,
    Prod.mk.injEq, mapM_fit_eq_some]
  constructor
  · rintro ⟨o, ho, i, hi, d, hd, rfl, rfl⟩
    exact ⟨o, i, ho, hi, rfl, hd⟩
  · rintro ⟨o, i, ho, hi, rfl, hd⟩
    exact ⟨o, ho, i, hi, din, hd, rfl, rfl⟩

end Sys2Proof
end

