-- ==== Sys2Proof/Laws/Decode.lean ====
section
/-! SUPPORT. The fields of a descriptor and the descriptor of fields undo each other, and the operation numbers. -/

namespace Sys2Proof

/-- Reading the fields of the descriptor that holds given fields gives them back. -/
@[simp] theorem fieldsOf_toCmd (f : Fields) : fieldsOf f.toCmd = f := by
  have low {m n : Nat} (x : BitVec m) (y : BitVec n) : (x ++ y).extractLsb' 0 n = y := by
    apply BitVec.eq_of_getLsbD_eq
    intro i hi
    simp [BitVec.getLsbD_append, hi]
  have high {m n k w : Nat} (x : BitVec m) (y : BitVec n) (hk : n ≤ k) :
      (x ++ y).extractLsb' k w = x.extractLsb' (k - n) w := by
    ext i hi
    simp [BitVec.getLsbD_append, show ¬ k + i < n by omega, show k + i - n = k - n + i by omega]
  cases f
  simp [fieldsOf, Fields.toCmd, low, high]

/-- The descriptor that holds the fields of a descriptor is that descriptor: every bit belongs to a field (R51). -/
@[simp] theorem toCmd_fieldsOf (c : Cmd) : (fieldsOf c).toCmd = c := by
  have bit {i j k w : Nat} (hk : k + j = i) (hw : j < w) : (decide (j < w) && c.getLsbD (k + j)) = c.getLsbD i := by
    simp [hw, hk]
  apply BitVec.eq_of_getLsbD_eq
  intro i hi
  simp only [Fields.toCmd, fieldsOf, BitVec.getLsbD_append, BitVec.getLsbD_extractLsb']
  split_ifs <;> exact bit (by omega) (by omega)

/-- The fields of an encoded instruction. -/
@[simp] theorem fieldsOf_encode (i : Instr) : fieldsOf (encode i) = i.fields := fieldsOf_toCmd _

/-- An operation is found by its own number (R52). -/
@[simp] theorem Op.ofNumber_number (o : Op) : Op.ofNumber o.number = some o := by
  cases o <;> decide

/-- The operation found by a number has that number (R52). -/
theorem Op.number_of_ofNumber {n : BitVec 4} {o : Op} (h : Op.ofNumber n = some o) : o.number = n := by
  simpa using List.find?_some h

/-- No operation is found exactly by the reserved numbers (R60). -/
theorem Op.ofNumber_eq_none (n : BitVec 4) : Op.ofNumber n = none ↔ n.toNat = 0 ∨ 10 ≤ n.toNat := by
  revert n
  decide

/-- An encoded instruction has its operation's number. -/
@[simp] theorem Instr.fields_op (i : Instr) : i.fields.op = i.op.number := by
  cases i <;> rfl

end Sys2Proof
end

