-- ==== Sys2Proof/Laws/State.lean ====
section
/-! SUPPORT. What each update of the state leaves in each field, one lemma per field. -/

namespace Sys2Proof.Machine

variable (s : State)

@[simp] theorem State.emit_inProgress (bs : List Byte) : (s.emit bs).inProgress = s.inProgress := rfl
@[simp] theorem State.emit_cmd (bs : List Byte) : (s.emit bs).cmd = s.cmd := rfl
@[simp] theorem State.emit_din (bs : List Byte) : (s.emit bs).din = s.din := rfl
/-- Emitting is appending. -/
theorem State.emit_eq (bs : List Byte) : s.emit bs = { s with dout := s.dout ++ bs } := by
  simp [State.emit, memWrite]

@[simp] theorem State.emit_dout (bs : List Byte) : (s.emit bs).dout = s.dout ++ bs := by
  rw [State.emit_eq]
@[simp] theorem State.emit_wout (bs : List Byte) : (s.emit bs).wout = s.wout := rfl
@[simp] theorem State.emit_config (bs : List Byte) : (s.emit bs).config = s.config := rfl
@[simp] theorem State.emit_host (bs : List Byte) : (s.emit bs).host = s.host := rfl
@[simp] theorem State.emit_responses (bs : List Byte) : (s.emit bs).responses = s.responses := rfl

@[simp] theorem State.emitw_inProgress (ws : List Word) : (s.emitw ws).inProgress = s.inProgress := rfl
@[simp] theorem State.emitw_cmd (ws : List Word) : (s.emitw ws).cmd = s.cmd := rfl
@[simp] theorem State.emitw_din (ws : List Word) : (s.emitw ws).din = s.din := rfl
@[simp] theorem State.emitw_dout (ws : List Word) : (s.emitw ws).dout = s.dout := rfl
@[simp] theorem State.emitw_wout (ws : List Word) : (s.emitw ws).wout = s.wout ++ ws := rfl
@[simp] theorem State.emitw_config (ws : List Word) : (s.emitw ws).config = s.config := rfl
@[simp] theorem State.emitw_host (ws : List Word) : (s.emitw ws).host = s.host := rfl
@[simp] theorem State.emitw_responses (ws : List Word) : (s.emitw ws).responses = s.responses := rfl

@[simp] theorem State.clear_inProgress : s.clear.inProgress = false := rfl
@[simp] theorem State.clear_cmd : s.clear.cmd = 0 := rfl
@[simp] theorem State.clear_din : s.clear.din = [] := rfl
@[simp] theorem State.clear_dout : s.clear.dout = [] := rfl
@[simp] theorem State.clear_wout : s.clear.wout = [] := rfl
@[simp] theorem State.clear_config : s.clear.config = s.config := rfl
@[simp] theorem State.clear_host : s.clear.host = s.host := rfl
@[simp] theorem State.clear_responses : s.clear.responses = s.responses := rfl

@[simp] theorem State.complete_inProgress (st : Stat) : (s.complete st).inProgress = false := rfl
@[simp] theorem State.complete_cmd (st : Stat) : (s.complete st).cmd = 0 := rfl
@[simp] theorem State.complete_din (st : Stat) : (s.complete st).din = [] := rfl
@[simp] theorem State.complete_dout (st : Stat) : (s.complete st).dout = [] := rfl
@[simp] theorem State.complete_wout (st : Stat) : (s.complete st).wout = [] := rfl
@[simp] theorem State.complete_config (st : Stat) : (s.complete st).config = s.config := rfl
@[simp] theorem State.complete_host (st : Stat) : (s.complete st).host = s.host := rfl
@[simp] theorem State.complete_responses (st : Stat) : (s.complete st).responses = s.responses ++ [{ stat := st, dout := s.dout, wout := s.wout }] := rfl

@[simp] theorem State.raise_inProgress (f : FaultCode) : (s.raise f).inProgress = false := rfl
@[simp] theorem State.raise_cmd (f : FaultCode) : (s.raise f).cmd = 0 := rfl
@[simp] theorem State.raise_din (f : FaultCode) : (s.raise f).din = [] := rfl
@[simp] theorem State.raise_dout (f : FaultCode) : (s.raise f).dout = [] := rfl
@[simp] theorem State.raise_wout (f : FaultCode) : (s.raise f).wout = [] := rfl
@[simp] theorem State.raise_config (f : FaultCode) : (s.raise f).config = s.config := rfl
@[simp] theorem State.raise_host (f : FaultCode) : (s.raise f).host = s.host := rfl
@[simp] theorem State.raise_responses (f : FaultCode) : (s.raise f).responses = s.responses ++ [{ stat := .fault f, dout := [], wout := [] }] := rfl

@[simp] theorem State.begin_inProgress (c : Cmd) (d : List Byte) : (s.begin c d).inProgress = true := rfl
@[simp] theorem State.begin_cmd (c : Cmd) (d : List Byte) : (s.begin c d).cmd = c := rfl
@[simp] theorem State.begin_din (c : Cmd) (d : List Byte) : (s.begin c d).din = d := rfl
@[simp] theorem State.begin_dout (c : Cmd) (d : List Byte) : (s.begin c d).dout = [] := rfl
@[simp] theorem State.begin_wout (c : Cmd) (d : List Byte) : (s.begin c d).wout = [] := rfl
@[simp] theorem State.begin_config (c : Cmd) (d : List Byte) : (s.begin c d).config = s.config := rfl
@[simp] theorem State.begin_host (c : Cmd) (d : List Byte) : (s.begin c d).host = s.host := rfl
@[simp] theorem State.begin_responses (c : Cmd) (d : List Byte) : (s.begin c d).responses = s.responses := rfl

@[simp] theorem State.reply_inProgress (r : Response) : (s.reply r).inProgress = false := rfl
@[simp] theorem State.reply_cmd (r : Response) : (s.reply r).cmd = 0 := rfl
@[simp] theorem State.reply_din (r : Response) : (s.reply r).din = [] := rfl
@[simp] theorem State.reply_dout (r : Response) : (s.reply r).dout = [] := rfl
@[simp] theorem State.reply_wout (r : Response) : (s.reply r).wout = [] := rfl
@[simp] theorem State.reply_config (r : Response) : (s.reply r).config = s.config := rfl
@[simp] theorem State.reply_host (r : Response) : (s.reply r).host = s.host := rfl
@[simp] theorem State.reply_responses (r : Response) : (s.reply r).responses = s.responses ++ [r] := rfl

@[simp] theorem State.tick_inProgress : s.tick.inProgress = s.inProgress := rfl
@[simp] theorem State.tick_cmd : s.tick.cmd = s.cmd := rfl
@[simp] theorem State.tick_din : s.tick.din = s.din := rfl
@[simp] theorem State.tick_dout : s.tick.dout = s.dout := rfl
@[simp] theorem State.tick_wout : s.tick.wout = s.wout := rfl
@[simp] theorem State.tick_config : s.tick.config = s.config := rfl
@[simp] theorem State.tick_host : s.tick.host = s.host.tail := rfl
@[simp] theorem State.tick_responses : s.tick.responses = s.responses := rfl

end Sys2Proof.Machine
end

