-- ==== Sys2Proof/Laws/Ops.lean ====
section
/-! SUPPORT. One lemma for each shared operation that says everything it can do. -/

namespace Sys2Proof.Machine

/-- Completing is replying with what the streams hold. -/
theorem State.complete_eq_reply (s : State) (st : Stat) :
    s.complete st = s.reply { stat := st, dout := s.dout, wout := s.wout } := rfl

/-- Raising is replying with the fault's response, whatever was emitted. -/
theorem State.raise_eq_reply (s : State) (f : FaultCode) : s.raise f = s.reply (faulted f) := rfl

/-- Emitting to `DOUT` changes nothing a reply keeps. -/
@[simp] theorem State.emit_reply (s : State) (bs : List Byte) (r : Response) : (s.emit bs).reply r = s.reply r := rfl

/-- Emitting to `WOUT` changes nothing a reply keeps. -/
@[simp] theorem State.emitw_reply (s : State) (ws : List Word) (r : Response) : (s.emitw ws).reply r = s.reply r := rfl

/-- `admits` is the bound of LEN_MAX. -/
theorem admits_iff (s : State) (n : Nat) : admits s.config n = true ↔ s.Admits n := by
  unfold admits State.Admits
  cases s.config.lenMax <;> simp

/-- An unbounded LEN_MAX admits every length. -/
theorem State.Unbounded.admits {s : State} (h : s.Unbounded) (n : Nat) : s.Admits n := by
  simp [State.Admits, h]

/-- What `accept` answers within LEN_MAX. -/
theorem State.accept_of_admits {s : State} (h : s.Admits s.din.length) (ok : Bool) (body : Out) :
    s.accept ok body = if ok then body else .next (s.reply (faulted .lengthError)) := by
  simp [State.accept, (admits_iff s _).2 h, State.raise_eq_reply]

/-- What `accept` answers beyond LEN_MAX. -/
theorem State.accept_of_not_admits {s : State} (h : ¬ s.Admits s.din.length) (ok : Bool) (body : Out) :
    s.accept ok body = .refused .exceedsLenMax := by
  simp [State.accept, mt (admits_iff s _).1 h]

/-- What `finish` answers within LEN_MAX. -/
theorem State.finish_of_admits {s : State} (h : s.Admits s.dout.length) :
    s.finish = .next (s.reply { stat := .ok, dout := s.dout, wout := s.wout }) := by
  simp [State.finish, (admits_iff s _).2 h, State.complete_eq_reply]

/-- What `finish` answers beyond LEN_MAX. -/
theorem State.finish_of_not_admits {s : State} (h : ¬ s.Admits s.dout.length) :
    s.finish = .refused .exceedsLenMax := by
  simp [State.finish, mt (admits_iff s _).1 h]

/-- Everything `accept` can do when it answers a next state. -/
theorem State.accept_next {s s' : State} {ok : Bool} {body : Out} (h : s.accept ok body = .next s') :
    s.Admits s.din.length ∧ ((ok = true ∧ body = .next s') ∨ (ok = false ∧ s' = s.reply (faulted .lengthError))) := by
  by_cases ha : s.Admits s.din.length
  · refine ⟨ha, ?_⟩
    rw [State.accept_of_admits ha] at h
    cases ok
    · exact .inr ⟨rfl, by simpa using h.symm⟩
    · exact .inl ⟨rfl, by simpa using h⟩
  · rw [State.accept_of_not_admits ha] at h
    cases h

/-- Everything `finish` can do when it answers a next state. -/
theorem State.finish_next {s s' : State} (h : s.finish = .next s') :
    s.Admits s.dout.length ∧ s' = s.reply { stat := .ok, dout := s.dout, wout := s.wout } := by
  by_cases ha : s.Admits s.dout.length
  · rw [State.finish_of_admits ha] at h
    exact ⟨ha, by simpa using h.symm⟩
  · rw [State.finish_of_not_admits ha] at h
    cases h

/-- `memRead` answers exactly when the bytes exist. -/
theorem memRead_isSome (bs : List Byte) (i n : Nat) : (memRead bs i n).isSome ↔ i + n ≤ bs.length := by
  unfold memRead
  split <;> simp_all

/-- The bytes `memRead` answers. -/
theorem memRead_of_le {bs : List Byte} {i n : Nat} (h : i + n ≤ bs.length) :
    ∃ v : Vector Byte n, memRead bs i n = some v ∧ v.toList = (bs.drop i).take n := by
  refine ⟨_, dif_pos h, ?_⟩
  simp

/-- The groups `readGroups` answers: all of them when the bytes exist, and together they are those bytes. -/
theorem readGroups_of_le {bs : List Byte} {size : Nat} (count k : Nat) (h : (k + count) * size ≤ bs.length) :
    ∃ gs : List (Vector Byte size), readGroups bs size count k = some gs ∧ gs.length = count ∧
      ∀ j (hj : j < gs.length), (gs[j]).toList = (bs.drop ((k + j) * size)).take size := by
  induction count generalizing k with
  | zero => exact ⟨[], rfl, rfl, by simp⟩
  | succ n ih =>
    obtain ⟨g, hg, hgl⟩ := memRead_of_le (bs := bs) (i := k * size) (n := size) (by
      have : (k + (n + 1)) * size = k * size + size + n * size := by ring
      omega)
    obtain ⟨gs, hgs, hlen, hval⟩ := ih (k + 1) (by rw [show k + 1 + n = k + (n + 1) by omega]; exact h)
    refine ⟨g :: gs, by simp [readGroups, hg, hgs], by simp [hlen], ?_⟩
    intro j hj
    cases j with
    | zero => simpa using hgl
    | succ m =>
      have hm : m < gs.length := by simpa using hj
      simpa [show k + 1 + m = k + (m + 1) by omega] using hval m hm

/-- What `fetch` finds while the host waits. -/
theorem fetch_of_hostWaits {s : State} (h : s.HostWaits) : fetch s = s.tick.serve := by
  rcases hh : s.host with _ | ⟨a, rest⟩
  · have : s.tick = s := by cases s; simp_all [State.tick]
    simp [fetch, hh, this]
  · have ha : a = .wait := by simpa [State.HostWaits, hh] using h
    subst ha
    simp [fetch, hh, State.tick]

/-- What a step is while the unit is idle and the host waits, or while it serves. -/
theorem step_of_hostWaits {s : State} (h : s.HostWaits) :
    step s = match s.tick.serve with
      | .stop f => .fault f
      | .moved t => .next t
      | .run i t => exec i t :=
  congrArg (fun m : Move => match m with
    | .stop f => (.fault f : Out)
    | .moved t => .next t
    | .run i t => exec i t) (fetch_of_hostWaits h)

/-- Everything `fetch` can do. -/
theorem fetch_cases (s : State) :
    (∃ c d rest, s.host = .issue c d :: rest ∧ s.inProgress = true ∧ fetch s = .stop .overlappingIssue) ∨
    (∃ c d rest, s.host = .issue c d :: rest ∧ s.inProgress = false ∧ fetch s = .moved (s.tick.begin c d)) ∨
    (∃ rest, s.host = .reset :: rest ∧ fetch s = .moved s.tick.clear) ∨
    (s.HostWaits ∧ s.inProgress = false ∧ fetch s = .moved s.tick) ∨
    (s.HostWaits ∧ s.inProgress = true ∧ ∃ f, fetch s = .moved (s.tick.raise f)) ∨
    (s.HostWaits ∧ s.inProgress = true ∧ ∃ i, decode s.cmd = .instr i ∧ fetch s = .run i s.tick) := by
  have hw : s.HostWaits →
      (s.HostWaits ∧ s.inProgress = false ∧ fetch s = .moved s.tick) ∨
      (s.HostWaits ∧ s.inProgress = true ∧ ∃ f, fetch s = .moved (s.tick.raise f)) ∨
      (s.HostWaits ∧ s.inProgress = true ∧ ∃ i, decode s.cmd = .instr i ∧ fetch s = .run i s.tick) := by
    intro h
    rw [fetch_of_hostWaits h]
    cases hp : s.inProgress
    · simp [State.serve, hp]
      exact h
    · cases hd : decode s.cmd <;> (simp [State.serve, hp, hd]; exact h)
  rcases hh : s.host with _ | ⟨a, rest⟩
  · simpa [State.HostWaits, hh] using hw (by simp [State.HostWaits, hh])
  · cases a with
    | issue c d => cases hp : s.inProgress <;> simp [fetch, hh, hp, State.tick]
    | wait => simpa [State.HostWaits, hh] using hw (by simp [State.HostWaits, hh])
    | reset => simp [fetch, hh, State.tick]

end Sys2Proof.Machine
end

