-- ==== Sys2Proof/Laws/Exec.lean ====
section
/-! SUPPORT. What every instruction does, said once: `exec` is the length check followed by the emission of two lists that
are functions of the instruction and `DIN` alone (`exec_eq`). Callers cite it and do not unfold a meaning. -/

namespace Sys2Proof.Machine

/-- `count` consecutive groups of `size` bytes of a list. -/
def chunks (size : Nat) : Nat → List Byte → List (List Byte)
  | 0, _ => []
  | count + 1, bs => bs.take size :: chunks size count (bs.drop size)

/-- The word of a list of four bytes. -/
def wordOf (be : ByteOrder) : List Byte → Word
  | [b0, b1, b2, b3] => dec32 #v[b0, b1, b2, b3] be
  | _ => 0

/-- The bytes an instruction emits for an accepted `DIN`. -/
def bytesOut (din : List Byte) : Instr → List Byte
  | .i2b be v => (enc32 v be).toList
  | .s2b be v => (enc16 v be).toList
  | .b2i _ => []
  | .b2ia _ => []
  | .u8 v => [v]
  | .pack flip d => (chunks d.step (din.length / d.step) din).flatMap (packWord d flip)
  | .cbw be flags lun cmdlen tag dtl =>
    cbwSignature ++ (enc32 tag be).toList ++ (enc32 dtl be).toList ++ [flags, lun, cmdlen] ++ din
  | .csw _ => din.take 4 ++ (din.drop 12).take 1
  | .regcmd code address lov =>
    [regcmdHeader, 0x00] ++ (enc32 address .big).toList ++ [code] ++ (enc16 lov .big).toList ++ [0, 0, 0, 0, 0, 0, 0]

/-- The words an instruction emits for an accepted `DIN`. -/
def wordsOut (din : List Byte) : Instr → List Word
  | .i2b .. => []
  | .s2b .. => []
  | .b2i be => [wordOf be (din.take 4)]
  | .b2ia be => (chunks 4 (din.length / 4) din).map (wordOf be)
  | .u8 .. => []
  | .pack .. => []
  | .cbw .. => []
  | .csw be => [wordOf be ((din.drop 4).take 4), wordOf be ((din.drop 8).take 4)]
  | .regcmd .. => []

/-- The number of chunks. -/
@[simp] theorem chunks_length (size count : Nat) (bs : List Byte) : (chunks size count bs).length = count := by
  induction count generalizing bs with
  | zero => rfl
  | succ n ih => simp [chunks, ih]

/-- A chunk by its index. -/
theorem chunks_getElem? (size count k : Nat) (bs : List Byte) (h : k < count) :
    (chunks size count bs)[k]? = some ((bs.drop (k * size)).take size) := by
  induction count generalizing bs k with
  | zero => omega
  | succ n ih =>
    cases k with
    | zero => simp [chunks]
    | succ m =>
      simp only [chunks, List.getElem?_cons_succ]
      rw [ih m _ (by omega), List.drop_drop]
      congr 3
      ring

/-- `readGroups` answers the chunks when the bytes exist. -/
theorem readGroups_eq_chunks {bs : List Byte} {size : Nat} (count k : Nat) (h : (k + count) * size ≤ bs.length) :
    ∃ gs : List (Vector Byte size), readGroups bs size count k = some gs ∧
      gs.map (fun g => g.toList) = chunks size count (bs.drop (k * size)) := by
  obtain ⟨gs, hgs, hlen, hval⟩ := readGroups_of_le count k h
  refine ⟨gs, hgs, List.ext_getElem? fun j => ?_⟩
  by_cases hj : j < gs.length
  · rw [chunks_getElem? _ _ _ _ (by omega), List.getElem?_map, List.getElem?_eq_getElem hj, Option.map_some, hval j hj,
      List.drop_drop]
    congr 3
    ring
  · simp [List.getElem?_eq_none (show gs.length ≤ j by omega),
      List.getElem?_eq_none (show (chunks size count (bs.drop (k * size))).length ≤ j by simp; omega)]

/-- The word of a vector's list is the word of the vector. -/
theorem wordOf_toList (be : ByteOrder) (v : Vector Byte 4) : wordOf be v.toList = dec32 v be := by
  obtain ⟨⟨l⟩, hl⟩ := v
  match l, hl with
  | [_, _, _, _], _ => rfl

/-- The model's step of a depth is `16/depth` of the table's depth. -/
theorem step_eq (d : Depth) : d.step = 16 / depthBits d := by cases d <;> rfl

/-- The model's halfstep of a depth is `8/depth` of the table's depth. -/
theorem halfstep_eq (d : Depth) : d.halfstep = 8 / depthBits d := by cases d <;> rfl

/-- What every instruction does: the length check of Table T35, then its bytes on `DOUT` and its words on `WOUT`. -/
theorem exec_eq (i : Instr) (s : State) :
    exec i s = s.accept (lengthAccepted i s.din.length)
      ((s.emit (bytesOut s.din i)).emitw (wordsOut s.din i)).finish := by
  have body {ok : Bool} {a b : Out} (h : ok = true → a = b) : s.accept ok a = s.accept ok b := by
    cases ok
    · rfl
    · rw [h rfl]
  have noWords (t : State) : t.emitw [] = t := by cases t; simp [State.emitw]
  have noBytes (t : State) : t.emit [] = t := by cases t; simp [State.emit_eq]
  cases i with
  | i2b be v => simp [exec, execI2b, lengthAccepted, bytesOut, wordsOut, noWords]
  | s2b be v => simp [exec, execS2b, lengthAccepted, bytesOut, wordsOut, noWords]
  | u8 v => simp [exec, execU8, lengthAccepted, bytesOut, wordsOut, noWords]
  | regcmd c a l =>
    simp [exec, execRegcmd, lengthAccepted, bytesOut, wordsOut, noWords, State.emit_eq, List.append_assoc]
  | b2i be =>
    refine body fun h => ?_
    obtain ⟨v, hv, hl⟩ := memRead_of_le (bs := s.din) (i := 0) (n := 4) (by simp at h; omega)
    simp [hv, bytesOut, wordsOut, noBytes, ← wordOf_toList, hl]
  | b2ia be =>
    refine body fun h => ?_
    obtain ⟨gs, hgs, hl⟩ := readGroups_eq_chunks (bs := s.din) (size := 4) (s.din.length / 4) 0 (by omega)
    simp only [Nat.zero_mul, List.drop_zero] at hl
    simp [hgs, bytesOut, wordsOut, noBytes, ← hl, Function.comp_def, wordOf_toList]
  | pack flip d =>
    simp only [exec, execPack, lengthAccepted, ← step_eq]
    refine body fun h => ?_
    obtain ⟨gs, hgs, hl⟩ := readGroups_eq_chunks (bs := s.din) (size := d.step) (s.din.length / d.step) 0
      (by rw [Nat.zero_add]; exact Nat.div_mul_le_self _ _)
    simp only [Nat.zero_mul, List.drop_zero] at hl
    simp [hgs, bytesOut, wordsOut, noWords, ← hl, List.flatMap_map]
  | cbw be f l c t d =>
    refine body fun _ => ?_
    obtain ⟨v, hv, hl⟩ := memRead_of_le (bs := s.din) (i := 0) (n := s.din.length) (by omega)
    simp [hv, hl, bytesOut, wordsOut, noWords, State.emit_eq, List.append_assoc]
  | csw be =>
    refine body fun h => ?_
    simp only [beq_iff_eq] at h
    obtain ⟨v, hv, hl⟩ := memRead_of_le (bs := s.din) (i := 0) (n := 4) (by omega)
    obtain ⟨v1, hv1, hl1⟩ := memRead_of_le (bs := s.din) (i := 4) (n := 4) (by omega)
    obtain ⟨v2, hv2, hl2⟩ := memRead_of_le (bs := s.din) (i := 8) (n := 4) (by omega)
    obtain ⟨v3, hv3, hl3⟩ := memRead_of_le (bs := s.din) (i := 12) (n := 1) (by omega)
    simp [hv, hv1, hv2, hv3, bytesOut, wordsOut, ← wordOf_toList, hl, hl1, hl2, hl3, State.emit_eq, State.emitw]

/-- Everything an instruction can do. -/
theorem exec_cases (i : Instr) (s : State) :
    (¬ s.Admits s.din.length ∧ exec i s = .refused .exceedsLenMax) ∨
    (s.Admits s.din.length ∧ lengthAccepted i s.din.length = false ∧
      exec i s = .next (s.reply (faulted .lengthError))) ∨
    (s.Admits s.din.length ∧ lengthAccepted i s.din.length = true ∧
      ¬ s.Admits (s.dout ++ bytesOut s.din i).length ∧ exec i s = .refused .exceedsLenMax) ∨
    (s.Admits s.din.length ∧ lengthAccepted i s.din.length = true ∧
      s.Admits (s.dout ++ bytesOut s.din i).length ∧
      exec i s = .next (s.reply (replied (s.dout ++ bytesOut s.din i) (s.wout ++ wordsOut s.din i)))) := by
  rw [exec_eq]
  by_cases ha : s.Admits s.din.length
  · rw [State.accept_of_admits ha]
    cases hl : lengthAccepted i s.din.length
    · exact .inr (.inl ⟨ha, rfl, rfl⟩)
    · have he (n : Nat) : ((s.emit (bytesOut s.din i)).emitw (wordsOut s.din i)).Admits n ↔ s.Admits n := Iff.rfl
      by_cases hd : s.Admits (s.dout ++ bytesOut s.din i).length
      · refine .inr (.inr (.inr ⟨ha, rfl, hd, ?_⟩))
        rw [if_pos rfl, State.finish_of_admits (by rwa [he, State.emitw_dout, State.emit_dout])]
        simp [replied]
      · refine .inr (.inr (.inl ⟨ha, rfl, hd, ?_⟩))
        rw [if_pos rfl, State.finish_of_not_admits (by rwa [he, State.emitw_dout, State.emit_dout])]
  · exact .inl ⟨ha, State.accept_of_not_admits ha _ _⟩

end Sys2Proof.Machine
end

