-- ==== Sys2Proof/Laws/PerInstr.lean ====
section
/-! SUPPORT. Family EncodeMatch: the encoding of an instruction meets the match and mask of its operation's row of Table
T53 (30_encoding.md R53, R61), for every operand. -/

namespace Sys2Proof

/-- A field by field reading of the mask: the conjunction of two descriptors is taken field by field. -/
theorem Fields.toCmd_and (f g : Fields) :
    f.toCmd &&& g.toCmd =
      Fields.toCmd { op := f.op &&& g.op, be := f.be &&& g.be, flip := f.flip &&& g.flip, dsel := f.dsel &&& g.dsel,
                     b0 := f.b0 &&& g.b0, b1 := f.b1 &&& g.b1, b2 := f.b2 &&& g.b2, a := f.a &&& g.a,
                     b := f.b &&& g.b } := by
  apply BitVec.eq_of_getLsbD_eq
  intro i _
  simp only [Fields.toCmd, BitVec.getLsbD_and, BitVec.getLsbD_append]
  split_ifs <;> rfl

/-- The encoding meets a mask when its fields meet the mask's fields. -/
theorem encode_and (i : Instr) (c : Cmd) :
    encode i &&& c = Fields.toCmd
      { op := i.fields.op &&& (fieldsOf c).op, be := i.fields.be &&& (fieldsOf c).be,
        flip := i.fields.flip &&& (fieldsOf c).flip, dsel := i.fields.dsel &&& (fieldsOf c).dsel,
        b0 := i.fields.b0 &&& (fieldsOf c).b0, b1 := i.fields.b1 &&& (fieldsOf c).b1,
        b2 := i.fields.b2 &&& (fieldsOf c).b2, a := i.fields.a &&& (fieldsOf c).a,
        b := i.fields.b &&& (fieldsOf c).b } := by
  rw [← Fields.toCmd_and, toCmd_fieldsOf, encode]

/-- A value of at most `k` bits set in a word has no bit in common with a mask of the bits from `k` on. -/
theorem setWidth_and_high {k : Nat} (v : BitVec k) (m : Word) (h : ∀ i, i < k → m.getLsbD i = false) :
    v.setWidth 32 &&& m = 0 := by
  ext i hi
  by_cases hk : i < k
  · have : m[i] = false := by simpa [BitVec.getLsbD_eq_getElem hi] using h i hk
    simp [this]
  · simp [BitVec.getLsbD_of_ge v i (by omega)]

end Sys2Proof


namespace Sys2Proof

/-- The masks of Table T53 as fields. -/
theorem fieldsOf_mask (o : Op) : fieldsOf o.mask =
    { op := 0xF,
      be := match o with | .u8 | .pack | .regcmd => 1 | .i2b | .s2b | .b2i | .b2ia | .cbw | .csw => 0,
      flip := match o with | .pack => 0 | .i2b | .s2b | .b2i | .b2ia | .u8 | .cbw | .csw | .regcmd => 1,
      dsel := match o with | .pack => 0 | .i2b | .s2b | .b2i | .b2ia | .u8 | .cbw | .csw | .regcmd => 3,
      b0 := match o with | .cbw | .regcmd => 0 | .i2b | .s2b | .b2i | .b2ia | .u8 | .pack | .csw => 0xFF,
      b1 := match o with | .cbw => 0 | .i2b | .s2b | .b2i | .b2ia | .u8 | .pack | .csw | .regcmd => 0xFF,
      b2 := match o with | .cbw => 0 | .i2b | .s2b | .b2i | .b2ia | .u8 | .pack | .csw | .regcmd => 0xFF,
      a := match o with
        | .i2b | .cbw | .regcmd => 0
        | .s2b => 0xFFFF0000
        | .u8 => 0xFFFFFF00
        | .b2i | .b2ia | .pack | .csw => 0xFFFFFFFF
      b := match o with
        | .cbw => 0
        | .regcmd => 0xFFFF0000
        | .i2b | .s2b | .b2i | .b2ia | .u8 | .pack | .csw => 0xFFFFFFFF } := by
  cases o <;> decide

/-- The patterns of Table T53 as fields. -/
theorem pattern_eq (o : Op) : o.pattern =
    Fields.toCmd { op := o.number, be := 0, flip := 0, dsel := 0, b0 := 0, b1 := 0, b2 := 0, a := 0, b := 0 } := by
  cases o <;> decide

end Sys2Proof

namespace Sys2Proof.Laws.EncodeMatch

/-- The encoding of `i` is selected by its operation's match and mask. -/
def Statement (i : Instr) : Prop := encode i &&& i.op.mask = i.op.pattern

theorem i2b (be : ByteOrder) (value : Word) : Statement (.i2b be value) := by
  simp only [Statement, encode_and, pattern_eq, Instr.op, fieldsOf_mask]
  congr 1
  simp [Instr.fields, Op.number]

theorem s2b (be : ByteOrder) (value : Half) : Statement (.s2b be value) := by
  simp only [Statement, encode_and, pattern_eq, Instr.op, fieldsOf_mask]
  congr 1
  simp [Instr.fields, Op.number]
  exact setWidth_and_high value _ (by decide)

theorem b2i (be : ByteOrder) : Statement (.b2i be) := by
  simp only [Statement, encode_and, pattern_eq, Instr.op, fieldsOf_mask]
  congr 1
  simp [Instr.fields, Op.number]

theorem b2ia (be : ByteOrder) : Statement (.b2ia be) := by
  simp only [Statement, encode_and, pattern_eq, Instr.op, fieldsOf_mask]
  congr 1
  simp [Instr.fields, Op.number]

theorem u8 (value : Byte) : Statement (.u8 value) := by
  simp only [Statement, encode_and, pattern_eq, Instr.op, fieldsOf_mask]
  congr 1
  simp [Instr.fields, Op.number]
  exact setWidth_and_high value _ (by decide)

theorem pack (flip : Bool) (depth : Depth) : Statement (.pack flip depth) := by
  simp only [Statement, encode_and, pattern_eq, Instr.op, fieldsOf_mask]
  congr 1
  simp [Instr.fields, Op.number]

theorem cbw (be : ByteOrder) (flags lun cmdlen : Byte) (tag dtl : Word) : Statement (.cbw be flags lun cmdlen tag dtl) := by
  simp only [Statement, encode_and, pattern_eq, Instr.op, fieldsOf_mask]
  congr 1
  simp [Instr.fields, Op.number]

theorem csw (be : ByteOrder) : Statement (.csw be) := by
  simp only [Statement, encode_and, pattern_eq, Instr.op, fieldsOf_mask]
  congr 1
  simp [Instr.fields, Op.number]

theorem regcmd (code : Byte) (address : Word) (lov : Half) : Statement (.regcmd code address lov) := by
  simp only [Statement, encode_and, pattern_eq, Instr.op, fieldsOf_mask]
  congr 1
  simp [Instr.fields, Op.number]
  exact setWidth_and_high lov _ (by decide)

end Sys2Proof.Laws.EncodeMatch
end

