-- ==== Sys2Proof/Tests/Slice0.lean ====
section
/-! SUPPORT. The model's own tests. Expected values are those of 95_test_vectors.md (each test names its vector) or are
written out from the spec's tables by hand; the last part shows that the hypotheses of the statements can be met. -/

namespace Sys2Proof.Tests

open Sys2Proof.Machine

/-! ### Well-formedness: an ill-formed term for each check of Table T53 (vectors V-X5 to V-X18) -/

/-- The fields of a descriptor with nothing set. -/
def zeroFields : Fields := { op := 0, be := 0, flip := 0, dsel := 0, b0 := 0, b1 := 0, b2 := 0, a := 0, b := 0 }

/-- Nine fields, each set alone to the given values: `be, flip, dsel, b0, b1, b2, a` and `b` low, `a` and `b` high. -/
def probes : List Fields :=
  [{ zeroFields with be := 1 }, { zeroFields with flip := 1 }, { zeroFields with dsel := 1 }, { zeroFields with b0 := 1 },
    { zeroFields with b1 := 1 }, { zeroFields with b2 := 1 }, { zeroFields with a := 1 }, { zeroFields with a := 0x100 },
    { zeroFields with a := 0x10000 }, { zeroFields with b := 1 }, { zeroFields with b := 0x10000 }]

theorem test_wf_zero : [Op.i2b, .s2b, .b2i, .b2ia, .u8, .pack, .cbw, .csw, .regcmd].all zeroFields.wellFormed = true := by
  decide

theorem test_wf_i2b : probes.map (·.wellFormed .i2b) =
    [true, false, false, false, false, false, true, true, true, false, false] := by decide

theorem test_wf_s2b : probes.map (·.wellFormed .s2b) =
    [true, false, false, false, false, false, true, true, false, false, false] := by decide

theorem test_wf_b2i : probes.map (·.wellFormed .b2i) =
    [true, false, false, false, false, false, false, false, false, false, false] := by decide

theorem test_wf_b2ia : probes.map (·.wellFormed .b2ia) =
    [true, false, false, false, false, false, false, false, false, false, false] := by decide

theorem test_wf_u8 : probes.map (·.wellFormed .u8) =
    [false, false, false, false, false, false, true, false, false, false, false] := by decide

theorem test_wf_pack : probes.map (·.wellFormed .pack) =
    [false, true, true, false, false, false, false, false, false, false, false] := by decide

theorem test_wf_cbw : probes.map (·.wellFormed .cbw) =
    [true, false, false, true, true, true, true, true, true, true, true] := by decide

theorem test_wf_csw : probes.map (·.wellFormed .csw) =
    [true, false, false, false, false, false, false, false, false, false, false] := by decide

theorem test_wf_regcmd : probes.map (·.wellFormed .regcmd) =
    [false, false, false, true, false, false, true, true, true, true, false] := by decide

/-! ### Decoding: one word for every constructor, written out from Tables T51 and T53 -/

/-- V-C5: `a = 0x12345678`, `be = 1`, `op = 1`. -/
theorem test_decode_i2b : decode 0x000000001234567800000011 = .instr (.i2b .big 0x12345678) := by decide

/-- V-C17: `a = 0x1234`, `be = 0`, `op = 2`. -/
theorem test_decode_s2b : decode 0x000000000000123400000002 = .instr (.s2b .little 0x1234) := by decide

/-- Descriptor of B2I.BE. -/
theorem test_decode_b2i : decode 0x000000000000000000000013 = .instr (.b2i .big) := by decide

/-- Descriptor of B2IA.LE. -/
theorem test_decode_b2ia : decode 0x000000000000000000000004 = .instr (.b2ia .little) := by decide

/-- V-C31. -/
theorem test_decode_u8 : decode 0x00000000000000FE00000005 = .instr (.u8 0xFE) := by decide

/-- The eight control words of R92. -/
theorem test_decode_pack : [0x06, 0x26, 0x46, 0x66, 0x86, 0xA6, 0xC6, 0xE6].map (fun n => decode (BitVec.ofNat 96 n)) =
    [.instr (.pack false .d1), .instr (.pack true .d1), .instr (.pack false .d2), .instr (.pack true .d2),
      .instr (.pack false .d4), .instr (.pack true .d4), .instr (.pack false .d8), .instr (.pack true .d8)] := by decide

/-- V-F2: `b` = dtl, `a` = tag, `b2` = cmdlen, `b1` = lun, `b0` = flags. -/
theorem test_decode_cbw :
    decode 0xA0B0C0D00102030410EE7F17 = .instr (.cbw .big 0x7F 0xEE 0x10 0x01020304 0xA0B0C0D0) := by decide

/-- Descriptor of CSW.BE. -/
theorem test_decode_csw : decode 0x000000000000000000000018 = .instr (.csw .big) := by decide

/-- V-F12: `b` = lov, `a` = addr, `b0` = code. -/
theorem test_decode_regcmd :
    decode 0x000006070102030400000509 = .instr (.regcmd 0x05 0x01020304 0x0607) := by decide

/-- V-X1 to V-X4. -/
theorem test_decode_illegal_operation :
    [0x0, 0xA, 0x1F, 0xFFFFFFFFFFFFFFFFFFFFFFFF].map (fun n => decode (BitVec.ofNat 96 n)) =
      List.replicate 4 .illegalOperation := by decide

/-- V-X5 to V-X18. -/
theorem test_decode_illegal_field :
    [0x000000000000000100000021, 0x000000010000000100000011, 0x000000000001000000000012, 0x000000000000010000000005,
      0x00000000000000FE00000015, 0x000000000000000000000016, 0x000000000000000100000006, 0x000000000000000000000106,
      0x000000000000000000000027, 0x000000000000000000000047, 0x000000000000000000000118, 0x000100000000000000000009,
      0x000000000000000000000019, 0x000000000000000000010009].map (fun n => decode (BitVec.ofNat 96 n)) =
      List.replicate 14 .illegalField := by decide

/-- V-F2 the other way. -/
theorem test_encode_cbw :
    encode (.cbw .big 0x7F 0xEE 0x10 0x01020304 0xA0B0C0D0) = 0xA0B0C0D00102030410EE7F17 := by decide

/-! ### One transaction: the response of the step that runs a descriptor on an input stream -/

/-- The machine right after reset with a transaction issued. -/
def issued (c : Cmd) (din : List Byte) : State := State.reset.begin c din

/-- The responses delivered by one step. -/
def answer (c : Cmd) (din : List Byte) : Option (List Response) :=
  match step (issued c din) with
  | .next s => some s.responses
  | .fault _ => none
  | .refused _ => none

/-- V-C5 and V-C6. -/
theorem test_i2b : answer 0x000000001234567800000011 [] = some [replied [0x12, 0x34, 0x56, 0x78] []] ∧
    answer 0x000000001234567800000001 [] = some [replied [0x78, 0x56, 0x34, 0x12] []] := by decide

/-- V-X19. -/
theorem test_i2b_length : answer 0x000000000000000100000011 [0] = some [faulted .lengthError] := by decide

/-- V-C19, both orders. -/
theorem test_s2b : answer 0x000000000000F83000000012 [] = some [replied [0xF8, 0x30] []] ∧
    answer 0x000000000000F83000000002 [] = some [replied [0x30, 0xF8] []] := by decide

/-- V-C22, both orders. -/
theorem test_b2i : answer 0x13 [0xFF, 0xFF, 0xFF, 0xFE] = some [replied [] [0xFFFFFFFE]] ∧
    answer 0x03 [0xFF, 0xFF, 0xFF, 0xFE] = some [replied [] [0xFEFFFFFF]] := by decide

/-- V-X22 to V-X24. -/
theorem test_b2i_length : [[], [1, 2, 3], [1, 2, 3, 4, 5]].map (answer 0x13) =
    List.replicate 3 (some [faulted .lengthError]) := by decide

/-- V-C28, both orders. -/
theorem test_b2ia :
    answer 0x14 [0, 0, 0, 5, 0, 0, 3, 0x20, 0, 0, 2, 0x58, 0xFF, 0xFF, 0xFF, 0xFF, 0x80, 0, 0, 1] =
      some [replied [] [5, 0x320, 0x258, 0xFFFFFFFF, 0x80000001]] ∧
    answer 0x04 [0, 0, 0, 5, 0, 0, 3, 0x20, 0, 0, 2, 0x58, 0xFF, 0xFF, 0xFF, 0xFF, 0x80, 0, 0, 1] =
      some [replied [] [0x05000000, 0x20030000, 0x58020000, 0xFFFFFFFF, 0x01000080]] := by decide

/-- V-C25 and V-C29. -/
theorem test_b2ia_length : answer 0x14 [] = some [replied [] []] ∧
    answer 0x14 [0, 0, 0, 1, 0] = some [faulted .lengthError] := by decide

/-- V-C31. -/
theorem test_u8 : answer 0x00000000000000FE00000005 [] = some [replied [0xFE] []] := by decide

/-- V-X20. -/
theorem test_u8_length : answer 0x05 [7] = some [faulted .lengthError] := by decide

/-- V-P17, V-P4, V-P5, V-P7, V-P8, V-P13, V-P14. -/
theorem test_pack :
    answer 0x06 [255, 0, 0, 0, 0, 0, 0, 0, 0, 0, 0, 0, 0, 0, 0, 9, 0, 0, 0, 0, 1, 1, 1, 1, 1, 1, 1, 1, 0, 0, 0, 0] =
      some [replied [0x01, 0x80, 0xF0, 0x0F] []] ∧
    answer 0x46 [0, 7, 0, 255, 1, 0, 0, 0] = some [replied [0xCC, 0x03] []] ∧
    answer 0x66 [0, 7, 0, 255, 1, 0, 0, 0] = some [replied [0x03, 0xCC] []] ∧
    answer 0x86 [9, 0, 0, 9] = some [replied [0x0F, 0xF0] []] ∧
    answer 0xA6 [9, 0, 0, 9] = some [replied [0xF0, 0x0F] []] ∧
    answer 0xC6 [20, 0, 0, 1] = some [replied [0xFF, 0x00, 0x00, 0xFF] []] ∧
    answer 0xE6 [20, 0, 0, 1] = some [replied [0x00, 0xFF, 0xFF, 0x00] []] := by decide

/-- V-X26 to V-X29, and V-P12. -/
theorem test_pack_length :
    answer 0x06 (List.replicate 8 1) = some [faulted .lengthError] ∧ answer 0xC6 [1] = some [faulted .lengthError] ∧
    answer 0x46 (List.replicate 12 1) = some [faulted .lengthError] ∧
    answer 0x86 (List.replicate 6 1) = some [faulted .lengthError] ∧ answer 0x06 [] = some [replied [] []] := by decide

/-- V-F2. -/
theorem test_cbw_be : answer 0xA0B0C0D00102030410EE7F17 [0xAA, 0xBB] =
    some [replied [0x55, 0x53, 0x42, 0x43, 1, 2, 3, 4, 0xA0, 0xB0, 0xC0, 0xD0, 0x7F, 0xEE, 0x10, 0xAA, 0xBB] []] := by
  decide

/-- V-F3. -/
theorem test_cbw_le : answer 0xA0B0C0D00102030410EE7F07 [0xAA, 0xBB] =
    some [replied [0x55, 0x53, 0x42, 0x43, 4, 3, 2, 1, 0xD0, 0xC0, 0xB0, 0xA0, 0x7F, 0xEE, 0x10, 0xAA, 0xBB] []] := by
  decide

/-- V-F7 and V-F8. -/
theorem test_csw :
    answer 0x18 [0xDE, 0xAD, 0xBE, 0xEF, 0x11, 0x22, 0x33, 0x44, 0x55, 0x66, 0x77, 0x88, 0x99] =
      some [replied [0xDE, 0xAD, 0xBE, 0xEF, 0x99] [0x11223344, 0x55667788]] ∧
    answer 0x08 [0xDE, 0xAD, 0xBE, 0xEF, 0x11, 0x22, 0x33, 0x44, 0x55, 0x66, 0x77, 0x88, 0x99] =
      some [replied [0xDE, 0xAD, 0xBE, 0xEF, 0x99] [0x44332211, 0x88776655]] := by decide

/-- V-X30. -/
theorem test_csw_length : [0, 11, 12, 14].map (fun n => answer 0x18 (List.replicate n 0)) =
    List.replicate 4 (some [faulted .lengthError]) := by decide

/-- V-S6 and V-F11. -/
theorem test_regcmd :
    answer 0x0000000A0000006400009609 [] =
      some [replied [0xFE, 0, 0, 0, 0, 0x64, 0x96, 0, 0x0A, 0, 0, 0, 0, 0, 0, 0] []] ∧
    answer 0x0000FFFFFFFFFFFF0000FF09 [] =
      some [replied [0xFE, 0, 0xFF, 0xFF, 0xFF, 0xFF, 0xFF, 0xFF, 0xFF, 0, 0, 0, 0, 0, 0, 0] []] := by decide

/-- V-X21. -/
theorem test_regcmd_length : answer 0x0000000A0000006400009609 [0] = some [faulted .lengthError] := by decide

/-- V-X31 and V-X32. -/
theorem test_priority : answer 0x2A [1] = some [faulted .illegalOperation] ∧
    answer 0x000000010000000000000013 [1] = some [faulted .illegalField] := by decide

/-- Table T130. -/
theorem test_codes : [Stat.ok, .fault .illegalOperation, .fault .illegalField, .fault .lengthError].map Stat.code =
    [0, 1, 2, 3] := by decide

/-- Table T91. -/
theorem test_pack_quantities : [Depth.d1, .d2, .d4, .d8].map (fun d => (d.step, d.halfstep, d.fieldMask)) =
    [(16, 8, 0x01), (8, 4, 0x03), (4, 2, 0x0F), (2, 1, 0xFF)] := by decide

/-- V-C22: the int32 values of two words (R7), and the 16-bit pattern of -2000 (V-C19). -/
theorem test_signed : sext (0xFFFFFFFE : Word) = -2 ∧ sext (0xFEFFFFFF : Word) = -16777217 ∧
    patternOf 16 (-2000) = 0xF830 := by decide

/-! ### Host and unit -/

/-- `MemWrite` in the middle of a stream and at its end (R37). -/
theorem test_memWrite : memWrite [1, 2, 3, 4] 1 [8, 9] = [1, 8, 9, 4] ∧ memWrite [1, 2] 2 [3] = [1, 2, 3] := by decide

/-- A finite LEN_MAX of 3: the four bytes of I2B do not fit (R35). -/
theorem test_len_max : (match step { issued 0x11 [] with config := { lenMax := some 3 } } with
    | .refused .exceedsLenMax => true
    | _ => false) = true := by decide

/-- R155. -/
theorem test_overlap : (match step { issued 0x11 [] with host := [.issue 0x11 []] } with
    | .fault .overlappingIssue => true
    | _ => false) = true := by decide

/-- R151: a reset during a transaction delivers nothing. -/
theorem test_reset : (match step { issued 0x11 [] with host := [.reset] } with
    | .next s => s == State.reset
    | _ => false) = true := by decide

/-- `withFetchWord` makes the next step run the descriptor, here V-C3. -/
theorem test_withFetchWord : (match step (State.reset.withFetchWord 96 0x000000000000000100000011) with
    | .next s => s.responses == [replied [0, 0, 0, 1] []]
    | _ => false) = true := by decide

/-- The row of the opcode table with all its free bits zero decodes to its operation. -/
theorem test_decodeTableWord : decodeTableWord 96 9 = some (.regcmd 0 0 0) ∧ decodeTableWord 96 10 = none := by decide

/-- `PACK.D1.FLIP <- [...]` and `CBW.BE tag=1, dtl=1, flags=0x80, lun=0, cmdlen=0 <- []` (V-S3, V-S4). -/
theorem test_assemble :
    assembleInstr .pack [.d1, .flip] [] = some (.pack true .d1) ∧
    (assembleInstr .cbw [.be] [(.tag, 1), (.dtl, 1), (.flags, 0x80), (.lun, 0), (.cmdlen, 0)]).map encode =
      some 0x000000010000000100008017 := by decide

/-- R63: no default byte order, no byte order on U8, no depth left out; U5: 65536 is no half. -/
theorem test_assemble_refuses :
    assembleInstr .i2b [] [(.value, 1)] = none ∧ assembleInstr .u8 [.be] [(.value, 1)] = none ∧
    assembleInstr .pack [.flip] [] = none ∧ assembleInstr .s2b [.be] [(.value, 65536)] = none := by decide

/-- R64: `bytesToIntArray.BE <- [0, 0, 0, 1]`. -/
theorem test_assemble_alias :
    ({ mnemonic := "bytesToIntArray", qualifiers := [.be], operands := [], input := [0, 0, 0, 1] } : AsmLine).assemble =
      some (0x14, [0, 0, 0, 1]) := by decide

/-- V-S4 and V-P14 as characters: the descriptors the vectors give. -/
theorem test_readLine :
    ((readLine "CBW.BE tag=1, dtl=1, flags=0x80, lun=0, cmdlen=0 <- []".toList).bind AsmLine.assemble) =
      some (0x000000010000000100008017, []) ∧
    ((readLine "PACK.D8.FLIP <- [20, 0, 0, 1]".toList).bind AsmLine.assemble) =
      some (0x0000000000000000000000E6, [20, 0, 0, 1]) := by decide

/-- V-S6 as characters; a name that does not exist and a number with a wrong digit are refused. -/
theorem test_readLine_regcmd :
    ((readLine "REGCMD addr=100, code=150, lov=10".toList).bind AsmLine.assemble) =
      some (0x0000000A0000006400009609, []) ∧
    readLine "U8 val=1".toList = none ∧ readLine "U8 value=1A".toList = none ∧
    readLine "B2I.BE <- [1, 2,]".toList = none := by decide

/-- Log entry 13: operands with no comma between them, or one after the last, are refused; operands that
end at a byte list are read. -/
theorem test_readLine_separator :
    readLine "REGCMD addr=100 code=150 lov=10".toList = none ∧
    readLine "REGCMD addr=100, code=150, lov=10,".toList = none ∧
    (readLine "I2B.BE value=1 <- []".toList).isSome = true := by decide

/-- The written result of V-S5 (R63). -/
theorem test_response_text :
    (replied [1, 2, 3, 4, 3] [1, 2]).text = "-> OK; DOUT=[1, 2, 3, 4, 3]; WOUT=[1, 2]" := by decide

/-! ### The hypotheses of the statements can be met: one witness for each statement that has some, each clause at a
boundary of its range -/

/-- The machine right after reset with a finite LEN_MAX and an input stream in place. -/
def bounded (lenMax : Nat) (din : List Byte) : State :=
  { State.reset with config := { lenMax := some lenMax }, din := din }

theorem witness_EncodeDecode : decode 0x000000000000000000000013 = .instr (.b2i .big) := by decide

theorem witness_DecodingIsTotal : (0x000000000000000000000011 : Cmd) &&& Op.mask .i2b = Op.pattern .i2b ∧
    (0x000000000000000000000019 : Cmd) &&& Op.mask .regcmd ≠ Op.pattern .regcmd ∧
    [0, 1, 9, 10, 15].map (fun n => reservedOp (BitVec.ofNat 96 n)) = [true, false, false, true, true] := by decide

theorem witness_MaskAgreesWithFields : namesOp 0x000000000000000000000019 .regcmd := by decide

theorem witness_StepRunsTheDecodedInstruction : (issued 0x11 []).Serving ∧
    decode (issued 0x11 []).cmd = .instr (.i2b .big 0) := by decide

theorem witness_IssueCapturesTheTransaction : ({ State.reset with host := [.issue 0x11 [1]] } : State).inProgress = false ∧
    ({ State.reset with host := [.issue 0x11 [1]] } : State).host = .issue 0x11 [1] :: [] := by decide

theorem witness_OverlappingIssueHasNoMove : ({ issued 0x11 [] with host := [.issue 0x11 []] } : State).inProgress = true ∧
    ({ issued 0x11 [] with host := [.issue 0x11 []] } : State).host = .issue 0x11 [] :: [] := by decide

theorem witness_ResetAbandonsTheTransaction : ({ issued 0x11 [] with host := [.reset, .wait] } : State).host =
    .reset :: [.wait] := by decide

theorem witness_IdleUnitDoesNothing : State.reset.inProgress = false ∧ State.reset.HostWaits ∧
    ({ State.reset with host := [.wait] } : State).HostWaits := by decide

/-- One state for each of the four codes, and the two neighbours of each accepted length. -/
theorem witness_CompletionCodeAndPriority :
    (issued 0x0A [1]).Serving ∧ (issued 0x0A [1]).Unbounded ∧ reservedOp (issued 0x0A [1]).cmd = true ∧
    (issued 0x21 [1]).Serving ∧ namesOp (issued 0x21 [1]).cmd .i2b ∧
    (fieldsOf (issued 0x21 [1]).cmd).wellFormed .i2b = false ∧
    decode (issued 0x13 [1, 2, 3]).cmd = .instr (.b2i .big) ∧
    [3, 4, 5].map (lengthAccepted (.b2i .big)) = [false, true, false] ∧
    [12, 13, 14].map (lengthAccepted (.csw .big)) = [false, true, false] ∧
    [0, 3, 4, 5, 8].map (lengthAccepted (.b2ia .big)) = [true, false, true, false, true] ∧
    [0, 8, 16, 24, 32].map (lengthAccepted (.pack false .d1)) = [true, false, true, false, true] ∧
    [0, 1, 2].map (lengthAccepted (.pack false .d8)) = [true, false, true] := by decide

theorem witness_IllegalDescriptorRaises : (issued 0x00 []).Serving ∧ reservedOp (issued 0x00 []).cmd = true ∧
    (issued 0x15 []).Serving ∧ namesOp (issued 0x15 []).cmd .u8 ∧
    (fieldsOf (issued 0x15 []).cmd).wellFormed .u8 = false := by decide

theorem witness_I2bSerialisesAWord : (0x11 : Cmd) &&& 0xFFFFFFFF00000000FFFFFFEF = 1 ∧
    BitVec.extractLsb' 0 4 (0x21 : Cmd) = 1 ∧ (0x21 : Cmd) &&& 0xFFFFFFFF00000000FFFFFFEF ≠ 1 ∧
    (bounded 4 []).Fresh ∧ (bounded 4 []).din = [] ∧ (bounded 4 []).Admits 4 ∧
    (bounded 4 [0]).din ≠ [] ∧ (bounded 4 [0]).Admits (bounded 4 [0]).din.length := by decide

theorem witness_S2bSerialisesAHalf : (0x000000000000FFFF00000012 : Cmd) &&& 0xFFFFFFFFFFFF0000FFFFFFEF = 2 ∧
    BitVec.extractLsb' 0 4 (0x000000000001000000000012 : Cmd) = 2 ∧
    (0x000000000001000000000012 : Cmd) &&& 0xFFFFFFFFFFFF0000FFFFFFEF ≠ 2 ∧
    (bounded 2 []).Fresh ∧ (bounded 2 []).din = [] ∧ (bounded 2 []).Admits 2 ∧
    (bounded 2 [0]).din ≠ [] ∧ (bounded 2 [0]).Admits (bounded 2 [0]).din.length := by decide

theorem witness_B2iReadsAWord : (0x13 : Cmd) &&& 0xFFFFFFFFFFFFFFFFFFFFFFEF = 3 ∧
    BitVec.extractLsb' 0 4 (0x33 : Cmd) = 3 ∧ (0x33 : Cmd) &&& 0xFFFFFFFFFFFFFFFFFFFFFFEF ≠ 3 ∧
    (bounded 4 [1, 2, 3, 4]).Fresh ∧ (bounded 4 [1, 2, 3, 4]).din = [1, 2, 3, 4] ∧ (bounded 4 [1, 2, 3, 4]).Admits 4 ∧
    (bounded 5 [1, 2, 3]).din.length ≠ 4 ∧ (bounded 5 [1, 2, 3, 4, 5]).din.length ≠ 4 ∧
    (bounded 5 [1, 2, 3, 4, 5]).Admits (bounded 5 [1, 2, 3, 4, 5]).din.length := by decide

theorem witness_B2iaReadsConsecutiveWords : (0x04 : Cmd) &&& 0xFFFFFFFFFFFFFFFFFFFFFFEF = 4 ∧
    BitVec.extractLsb' 0 4 (0x44 : Cmd) = 4 ∧ (0x44 : Cmd) &&& 0xFFFFFFFFFFFFFFFFFFFFFFEF ≠ 4 ∧
    (bounded 8 (List.replicate 8 1)).Fresh ∧ (bounded 8 (List.replicate 8 1)).din.length % 4 = 0 ∧
    (bounded 8 (List.replicate 8 1)).Admits (bounded 8 (List.replicate 8 1)).din.length ∧
    1 < (bounded 8 (List.replicate 8 1)).din.length / 4 ∧
    (bounded 8 (List.replicate 7 1)).din.length % 4 ≠ 0 ∧
    (bounded 8 (List.replicate 7 1)).Admits (bounded 8 (List.replicate 7 1)).din.length := by decide

theorem witness_U8ProducesOneByte : (0x00000000000000FF00000005 : Cmd) &&& 0xFFFFFFFFFFFFFF00FFFFFFFF = 5 ∧
    BitVec.extractLsb' 0 4 (0x000000000000010000000005 : Cmd) = 5 ∧
    (0x000000000000010000000005 : Cmd) &&& 0xFFFFFFFFFFFFFF00FFFFFFFF ≠ 5 ∧
    (bounded 1 []).Fresh ∧ (bounded 1 []).din = [] ∧ (bounded 1 []).Admits 1 ∧
    (bounded 1 [7]).din ≠ [] ∧ (bounded 1 [7]).Admits (bounded 1 [7]).din.length := by decide

theorem witness_PackSetsTheBitsOfNonzeroSamples : (0xE6 : Cmd) &&& 0xFFFFFFFFFFFFFFFFFFFFFF1F = 6 ∧
    BitVec.extractLsb' 0 4 (0x16 : Cmd) = 6 ∧ (0x16 : Cmd) &&& 0xFFFFFFFFFFFFFFFFFFFFFF1F ≠ 6 ∧
    16 = 16 / depthBits .d1 ∧ 8 = 8 / depthBits .d1 ∧ (bounded 32 (List.replicate 32 1)).Fresh ∧
    (bounded 32 (List.replicate 32 1)).din.length % 16 = 0 ∧
    (bounded 32 (List.replicate 32 1)).Admits (bounded 32 (List.replicate 32 1)).din.length ∧
    1 < (bounded 32 (List.replicate 32 1)).din.length / 16 ∧
    (bounded 32 (List.replicate 8 1)).din.length % (16 / depthBits .d1) ≠ 0 ∧
    (bounded 32 (List.replicate 8 1)).Admits (bounded 32 (List.replicate 8 1)).din.length := by decide

theorem witness_CbwBuildsTheWrapper : (0x000000010000000100008017 : Cmd) &&& 0x0000000000000000000000EF = 7 ∧
    BitVec.extractLsb' 0 4 (0x27 : Cmd) = 7 ∧ (0x27 : Cmd) &&& 0x0000000000000000000000EF ≠ 7 ∧
    (bounded 17 [0xAA, 0xBB]).Fresh ∧ (bounded 17 [0xAA, 0xBB]).Admits (15 + (bounded 17 [0xAA, 0xBB]).din.length) ∧
    (bounded 15 []).Admits (15 + (bounded 15 []).din.length) := by decide

theorem witness_CswSplitsThirteenBytes : (0x18 : Cmd) &&& 0xFFFFFFFFFFFFFFFFFFFFFFEF = 8 ∧
    BitVec.extractLsb' 0 4 (0x118 : Cmd) = 8 ∧ (0x118 : Cmd) &&& 0xFFFFFFFFFFFFFFFFFFFFFFEF ≠ 8 ∧
    (bounded 13 [1, 2, 3, 4, 0, 0, 0, 1, 0, 0, 0, 2, 3]).Fresh ∧
    (bounded 13 [1, 2, 3, 4, 0, 0, 0, 1, 0, 0, 0, 2, 3]).din = [1, 2, 3, 4, 0, 0, 0, 1, 0, 0, 0, 2, 3] ∧
    (bounded 13 [1, 2, 3, 4, 0, 0, 0, 1, 0, 0, 0, 2, 3]).Admits 13 ∧
    (bounded 14 (List.replicate 12 0)).din.length ≠ 13 ∧ (bounded 14 (List.replicate 14 0)).din.length ≠ 13 ∧
    (bounded 14 (List.replicate 14 0)).Admits (bounded 14 (List.replicate 14 0)).din.length := by decide

theorem witness_RegcmdBuildsSixteenBytes : (0x0000FFFFFFFFFFFF0000FF09 : Cmd) &&& 0xFFFF000000000000FFFF00FF = 9 ∧
    BitVec.extractLsb' 0 4 (0x000100000000000000000009 : Cmd) = 9 ∧
    (0x000100000000000000000009 : Cmd) &&& 0xFFFF000000000000FFFF00FF ≠ 9 ∧
    (bounded 16 []).Fresh ∧ (bounded 16 []).din = [] ∧ (bounded 16 []).Admits 16 ∧
    (bounded 16 [0]).din ≠ [] ∧ (bounded 16 [0]).Admits (bounded 16 [0]).din.length := by decide

/-- The four clauses: `DIN` beyond LEN_MAX, a wrong length within it, `DOUT` beyond it, all within it. -/
theorem witness_LengthRuleOfEveryInstruction :
    ¬ (bounded 3 [1, 2, 3, 4]).Admits (bounded 3 [1, 2, 3, 4]).din.length ∧
    (bounded 3 [1, 2, 3]).Admits (bounded 3 [1, 2, 3]).din.length ∧
    lengthAccepted (.b2i .big) (bounded 3 [1, 2, 3]).din.length = false ∧
    (bounded 3 []).Admits (bounded 3 []).din.length ∧ lengthAccepted (.i2b .big 1) (bounded 3 []).din.length = true ∧
    ¬ (bounded 3 []).Admits (doutLength (.i2b .big 1) (bounded 3 []).din.length) ∧
    (bounded 4 []).Admits (doutLength (.i2b .big 1) (bounded 4 []).din.length) ∧ (bounded 4 []).Fresh := by decide

theorem witness_CodecRoundTrips : State.reset.Fresh ∧ State.reset.Unbounded ∧ State.reset.din = [] ∧
    (issued 0x13 [1, 2, 3, 4]).Fresh ∧ (issued 0x13 [1, 2, 3, 4]).Unbounded ∧
    (issued 0x13 [1, 2, 3, 4]).din.length = 4 ∧
    (∀ g ∈ ([[1, 2, 3, 4], [5, 6, 7, 8]] : List (List Byte)), g.length = 4) ∧
    ([[1, 2, 3, 4], [5, 6, 7, 8]] : List (List Byte))[1]? = some [5, 6, 7, 8] ∧
    ([0x01020304, 0x05060708] : List Word)[1]? = some 0x05060708 := by decide

theorem witness_PackOfWhiteAndBlack : State.reset.Fresh ∧ State.reset.Unbounded := by decide

theorem witness_PackIsBlindToMagnitude : State.reset.Unbounded ∧
    ([20, 0] : List Byte).map (fun x => x != 0) = ([255, 0] : List Byte).map (fun y => y != 0) := by decide

theorem witness_PackFlipExchangesBytes : (issued 0x86 [9, 0, 0, 9]).Fresh ∧ (issued 0x86 [9, 0, 0, 9]).Unbounded ∧
    (issued 0x86 [9, 0, 0, 9]).din.length % (16 / depthBits .d4) = 0 := by decide

theorem witness_PackOfAConcatenation : State.reset.Fresh ∧ State.reset.Unbounded ∧
    (List.replicate 8 (1 : Byte)).length % (16 / depthBits .d2) = 0 ∧
    (List.replicate 16 (1 : Byte)).length % (16 / depthBits .d2) = 0 := by decide

theorem witness_PackAtDepthEightBinarises : (issued 0xC6 [20, 0]).Fresh ∧ (issued 0xC6 [20, 0]).Unbounded ∧
    (issued 0xC6 [20, 0]).din.length % 2 = 0 := by decide

theorem witness_FramerUsesTheCodec : (issued 0x18 (List.replicate 13 1)).Fresh ∧
    (issued 0x18 (List.replicate 13 1)).Unbounded ∧ (issued 0x18 (List.replicate 13 1)).din.length = 13 ∧
    (issued 0x09 []).Fresh ∧ (issued 0x09 []).din = [] := by decide

/-- The two ends of the range of eight bits. -/
theorem witness_SignedValuesRoundTrip : 0 < 8 ∧ -(2 ^ (8 - 1)) ≤ (-128 : Int) ∧ (-128 : Int) < 2 ^ (8 - 1) ∧
    -(2 ^ (8 - 1)) ≤ (127 : Int) ∧ (127 : Int) < 2 ^ (8 - 1) := by decide

theorem witness_AssemblerIsSound :
    ({ mnemonic := "U8", qualifiers := [], operands := [(.value, 255)], input := [] } : AsmLine).assemble =
      some (0x00000000000000FF00000005, []) := by decide

theorem witness_FrameOfEveryInstruction :
    exec (.u8 7) State.reset = .next (State.reset.reply (replied [7] [])) := by rfl

theorem witness_EqualTransactionsEqualResponses : (issued 0x13 [1]).Serving ∧
    ({ issued 0x13 [1] with host := [.wait, .reset], responses := [faulted .illegalField] } : State).Serving ∧
    (issued 0x13 [1]).Fresh ∧
    ({ issued 0x13 [1] with host := [.wait, .reset], responses := [faulted .illegalField] } : State).Fresh ∧
    ({ issued 0x13 [1] with host := [.wait, .reset], responses := [faulted .illegalField] } : State).config =
      (issued 0x13 [1]).config ∧
    ({ issued 0x13 [1] with host := [.wait, .reset], responses := [faulted .illegalField] } : State).cmd = 0x13 ∧
    ({ issued 0x13 [1] with host := [.wait, .reset], responses := [faulted .illegalField] } : State).din = [1] := by
  decide

theorem witness_OnlyACompletionDelivers : step State.reset = .next State.reset := by rfl

theorem witness_OnlyACompletionDelivers_completion :
    step (issued 0x13 []) = .next ((issued 0x13 []).reply (faulted .lengthError)) := by rfl

theorem witness_EveryStepKeepsTheInvariant_step :
    step (issued 0x15 []) = .next ((issued 0x15 []).reply (faulted .illegalField)) := by rfl

theorem witness_EveryStepKeepsTheInvariant : (issued 0x15 []).Inv ∧
    ({ State.reset with responses := [replied [1] [], faulted .lengthError] } : State).Inv := by decide

theorem witness_RunAnswersEachTransactionAlone :
    ({ State.reset with host := dutifulHost [(0x13, [0, 0, 0, 1]), (0, [])] } : State).Quiet ∧
    ({ State.reset with host := dutifulHost [(0x13, [0, 0, 0, 1]), (0, [])] } : State).Unbounded ∧
    ({ State.reset with host := dutifulHost [(0x13, [0, 0, 0, 1]), (0, [])] } : State).host =
      dutifulHost [(0x13, [0, 0, 0, 1]), (0, [])] := by decide

end Sys2Proof.Tests
end

