-- ==== Sys2Proof/Proofs/Scope.lean ====
section
/-! PROOFS. The readings of a bit pattern as a number (00_scope.md R7, 30_encoding.md R58), and that no instruction stops
in a fault of the machine (00_scope.md R8). -/

namespace Sys2Proof

/-- The signed reading of R7 is the library's two's complement reading, at every width. -/
theorem sext_eq_toInt {n : Nat} (x : BitVec n) : sext x = x.toInt := by
  cases n with
  | zero => simp [sext, BitVec.of_length_zero]
  | succ m =>
    have hpow : 2 ^ (m + 1) = 2 * 2 ^ m := Nat.pow_succ'
    have hcond : x.toNat < 2 ^ m ↔ 2 * x.toNat < 2 ^ (m + 1) := by omega
    simp [sext, BitVec.toInt_eq_toNat_cond, hcond]

/-- The unsigned reading of the pattern of an integer is that integer modulo `2 ^ n`. -/
theorem zext_patternOf (n : Nat) (v : Int) : (zext (patternOf n v) : Int) = v % 2 ^ n := by
  have hpos : (0 : Int) < 2 ^ n := by positivity
  simp [zext, patternOf, BitVec.toNat_ofInt, Int.toNat_of_nonneg (Int.emod_nonneg v hpos.ne')]

/-- A nonnegative integer that fits is passed as itself (R58). -/
theorem zext_patternOf_of_nonneg {n : Nat} {v : Int} (h0 : 0 ≤ v) (h : v < 2 ^ n) :
    (zext (patternOf n v) : Int) = v := by
  rw [zext_patternOf, Int.emod_eq_of_lt h0 h]

/-- A negative integer that fits is passed as `v + 2 ^ n` (R58). -/
theorem zext_patternOf_of_neg {n : Nat} {v : Int} (h : -(2 ^ n) ≤ v) (h0 : v < 0) :
    (zext (patternOf n v) : Int) = v + 2 ^ n := by
  rw [zext_patternOf, ← Int.add_emod_right, Int.emod_eq_of_lt (by omega) (by omega)]

/-- Settles O32: the signed reading is the library's, which undoes `BitVec.ofInt` on the signed range; the unsigned one is
the integer modulo `2 ^ n`, with a case for each sign. -/
theorem signedValuesRoundTrip : Obligations.SignedValuesRoundTrip := by
  intro n v hn hlo hhi
  refine ⟨?_, ?_⟩
  · rw [sext_eq_toInt, patternOf, BitVec.toInt_ofInt_eq_self hn hlo hhi]
  · have hle : (2 : Int) ^ (n - 1) ≤ 2 ^ n := pow_le_pow_right₀ (by decide) (Nat.sub_le n 1)
    split
    case isTrue hneg => exact zext_patternOf_of_neg (by omega) hneg
    case isFalse hnonneg => exact zext_patternOf_of_nonneg (by omega) (by omega)

end Sys2Proof

namespace Sys2Proof.Machine

/-- Settles O36: `exec_cases` lists every outcome of an instruction, and each is a refusal beyond LEN_MAX or a next state;
its reads of `DIN` are in range because the length check comes before them (`exec_eq`). -/
theorem noInstructionFaults : Obligations.NoInstructionFaults := by
  intro i s f hfault
  obtain ⟨-, h⟩ | ⟨-, -, h⟩ | ⟨-, -, -, h⟩ | ⟨-, -, -, h⟩ := exec_cases i s <;> rw [h] at hfault <;> cases hfault

end Sys2Proof.Machine
end

