-- ==== Sys2Proof/Proofs/State.lean ====
section
/-! PROOFS. What a step or an instruction can do when it answers a next state, and what every step keeps (10_state.md R14,
R16, R18, R19; 20_memory.md R35, R38; 60_exceptions.md R137; 70_reset_and_hazards.md R150, R151, R163). -/

namespace Sys2Proof.Machine

/-- What the invariant asks of one response that `s` delivers: a fault has empty streams (R137), and `DOUT` is within
LEN_MAX (R35). -/
def State.MayDeliver (s : State) (r : Response) : Prop :=
  (r.stat ≠ .ok → r.dout = [] ∧ r.wout = []) ∧ s.Admits r.dout.length

/-- A fault's response has empty streams, and the empty stream is within every LEN_MAX. -/
theorem State.mayDeliver_faulted (s : State) (f : FaultCode) : s.MayDeliver (faulted f) :=
  ⟨fun _ => ⟨rfl, rfl⟩, fun m _ => Nat.zero_le m⟩

/-- A success may be delivered when its `DOUT` is within LEN_MAX. -/
theorem State.mayDeliver_replied {s : State} {dout : List Byte} (h : s.Admits dout.length) (wout : List Word) :
    s.MayDeliver (replied dout wout) :=
  ⟨fun hne => absurd rfl hne, h⟩

/-- The invariant, with its two clauses about responses as one. -/
theorem State.inv_iff (s : State) :
    s.Inv ↔ (s.inProgress = false → s.Quiet) ∧ s.Fresh ∧ ∀ r ∈ s.responses, s.MayDeliver r := by
  simp only [State.Inv, State.MayDeliver, forall_and]

/-- Everything an instruction can do when it answers a next state. -/
theorem exec_next {i : Instr} {s t : State} (h : exec i s = .next t) : ∃ r, s.MayDeliver r ∧ t = s.reply r := by
  obtain ⟨-, he⟩ | ⟨-, -, he⟩ | ⟨-, -, -, he⟩ | ⟨-, -, hd, he⟩ := exec_cases i s <;> rw [he] at h <;> cases h
  · exact ⟨_, s.mayDeliver_faulted _, rfl⟩
  · exact ⟨_, State.mayDeliver_replied hd _, rfl⟩

/-- Everything a step can do when it answers a next state. -/
theorem step_next {s t : State} (h : step s = .next t) :
    (∃ c d rest, s.host = .issue c d :: rest ∧ s.inProgress = false ∧ t = s.tick.begin c d) ∨
    (∃ rest, s.host = .reset :: rest ∧ t = s.tick.clear) ∨
    (s.HostWaits ∧ s.inProgress = false ∧ t = s.tick) ∨
    (s.Serving ∧ ∃ r, s.MayDeliver r ∧ t = s.tick.reply r) := by
  obtain ⟨_, _, _, -, -, hf⟩ | ⟨c, d, rest, hh, hp, hf⟩ | ⟨rest, hh, hf⟩ | ⟨hw, hp, hf⟩ | ⟨hw, hp, f, hf⟩ |
    ⟨hw, hp, i, -, hf⟩ := fetch_cases s <;> simp only [step, hf] at h
  · cases h
  · cases h
    exact .inl ⟨c, d, rest, hh, hp, rfl⟩
  · cases h
    exact .inr (.inl ⟨rest, hh, rfl⟩)
  · cases h
    exact .inr (.inr (.inl ⟨hw, hp, rfl⟩))
  · cases h
    exact .inr (.inr (.inr ⟨⟨hp, hw⟩, faulted f, s.mayDeliver_faulted f, rfl⟩))
  · exact .inr (.inr (.inr ⟨⟨hp, hw⟩, exec_next h⟩))

/-- The step of an issue to an idle unit. -/
theorem step_of_issue {s : State} {c : Cmd} {d : List Byte} {rest : List HostAct} (hp : s.inProgress = false)
    (hh : s.host = .issue c d :: rest) : step s = .next (s.tick.begin c d) := by
  simp [step, fetch, hh, hp, State.tick]

/-- Beginning a transaction keeps the invariant. -/
theorem State.Inv.begin {s : State} (h : s.Inv) (c : Cmd) (d : List Byte) : (s.begin c d).Inv := by
  obtain ⟨-, -, hr⟩ := s.inv_iff.1 h
  exact (State.inv_iff _).2 ⟨fun hp => Bool.noConfusion hp, ⟨rfl, rfl⟩, hr⟩

/-- Clearing the unit keeps the invariant. -/
theorem State.Inv.clear {s : State} (h : s.Inv) : s.clear.Inv := by
  obtain ⟨-, -, hr⟩ := s.inv_iff.1 h
  exact (State.inv_iff _).2 ⟨fun _ => ⟨rfl, rfl, rfl, rfl, rfl⟩, ⟨rfl, rfl⟩, hr⟩

/-- The invariant does not speak of the host's list. -/
theorem State.Inv.tick {s : State} (h : s.Inv) : s.tick.Inv := h

/-- A reply with a response that may be delivered keeps the invariant. -/
theorem State.Inv.reply {s : State} (h : s.Inv) {r : Response} (hr : s.MayDeliver r) : (s.reply r).Inv := by
  obtain ⟨-, -, hold⟩ := s.inv_iff.1 h
  refine (State.inv_iff _).2 ⟨fun _ => ⟨rfl, rfl, rfl, rfl, rfl⟩, ⟨rfl, rfl⟩, ?_⟩
  intro r' hmem
  rw [State.reply_responses, List.mem_append, List.mem_singleton] at hmem
  obtain hmem | rfl := hmem
  · exact hold r' hmem
  · exact hr

/-- Settles O40: `step_next` lists what a step can do, and each of its four updates of the state keeps the invariant. -/
theorem everyStepKeepsTheInvariant : Obligations.EveryStepKeepsTheInvariant := by
  intro s t hinv hstep
  obtain ⟨c, d, _, -, -, rfl⟩ | ⟨_, -, rfl⟩ | ⟨-, -, rfl⟩ | ⟨-, r, hr, rfl⟩ := step_next hstep
  · exact hinv.tick.begin c d
  · exact hinv.tick.clear
  · exact hinv.tick
  · exact hinv.tick.reply hr

/-- Settles O35: an instruction that answers a next state replies (`exec_next`), and a reply is the frame. -/
theorem frameOfEveryInstruction : Obligations.FrameOfEveryInstruction := by
  intro i s t hexec
  obtain ⟨r, -, rfl⟩ := exec_next hexec
  exact ⟨⟨r, s.reply_responses r⟩, s.reply_config r, s.reply_host r, rfl, rfl, rfl, rfl, rfl⟩

/-- Settles O38: of the four things a step can do (`step_next`), only the reply of a serving unit delivers. -/
theorem onlyACompletionDelivers : Obligations.OnlyACompletionDelivers := by
  intro s t hstep
  obtain ⟨c, d, _, -, -, rfl⟩ | ⟨_, -, rfl⟩ | ⟨-, -, rfl⟩ | ⟨hserving, r, -, rfl⟩ := step_next hstep
  · exact ⟨rfl, .inl rfl⟩
  · exact ⟨rfl, .inl rfl⟩
  · exact ⟨rfl, .inl rfl⟩
  · exact ⟨rfl, .inr ⟨hserving, rfl, r, rfl⟩⟩

/-- Settles O7: an issue to an idle unit begins the transaction (`step_of_issue`), with the issue taken from the host's
list. -/
theorem issueCapturesTheTransaction : Obligations.IssueCapturesTheTransaction := by
  intro s c d rest hidle hhost
  rw [step_of_issue hidle hhost]
  simp [State.begin, State.tick, hhost]

/-- Settles O11: the values of the reset state. -/
theorem resetStateIsIdle : Obligations.ResetStateIsIdle := ⟨⟨rfl, rfl, rfl, rfl, rfl⟩, rfl⟩

/-- Settles O39: the reset state is quiet and has delivered nothing. -/
theorem invariantAtReset : Obligations.InvariantAtReset := by
  obtain ⟨hquiet, hresponses⟩ := resetStateIsIdle
  exact State.reset.inv_iff.2 ⟨fun _ => hquiet, ⟨rfl, rfl⟩, by simp [hresponses]⟩

end Sys2Proof.Machine
end

