-- ==== Sys2Proof/Proofs/Memory.lean ====
section
/-! PROOFS. The byte orders of a word (20_memory.md R30 to R32), the lengths of every instruction (R35, Table T35;
30_encoding.md R56, Table T56), and the response of a transaction as a function of `CMD` and `DIN` alone, in a step and
along a run (20_memory.md R40, R41, R43; 70_reset_and_hazards.md R155, R163). -/

namespace Sys2Proof

/-- An append as a number: the high part counts `2 ^ n` for each unit. -/
theorem toNat_append_eq {m n : Nat} (x : BitVec m) (y : BitVec n) : (x ++ y).toNat = x.toNat * 2 ^ n + y.toNat := by
  rw [BitVec.toNat_append, ← Nat.shiftLeft_add_eq_or_of_lt y.isLt, Nat.shiftLeft_eq]

/-- The big-endian word of four bytes is the number R30 gives. -/
theorem toNat_dec32_big (bs : Vector Byte 4) : (dec32 bs .big).toNat =
    bs[0].toNat * 2 ^ 24 + bs[1].toNat * 2 ^ 16 + bs[2].toNat * 2 ^ 8 + bs[3].toNat := by
  simp only [dec32, toNat_append_eq]
  ring

/-- Little-endian decoding is big-endian decoding of the reversed bytes (R31). -/
theorem dec32_little (bs : Vector Byte 4) : dec32 bs .little = dec32 bs.reverse .big := by
  simp [dec32]

/-- Little-endian encoding is the reversal of big-endian encoding (R31). -/
theorem enc32_little (w : Word) : enc32 w .little = (enc32 w .big).reverse := by
  simp [enc32, le32, be32]

/-- Byte `k` of the big-endian encoding is the digit of `2 ^ (24 - 8 * k)` (R30). -/
theorem toNat_enc32_big (w : Word) (k : Nat) (hk : k < 4) :
    (enc32 w .big)[k].toNat = w.toNat / 2 ^ (24 - 8 * k) % 2 ^ 8 := by
  match k, hk with
  | 0, _ | 1, _ | 2, _ | 3, _ => simp [enc32, be32, Nat.shiftRight_eq_div_pow]

/-- A word is the number of its four digits in base `2 ^ 8`. -/
theorem dec32_enc32_big (w : Word) : dec32 (enc32 w .big) .big = w := by
  apply BitVec.eq_of_toNat_eq
  simp only [toNat_dec32_big, toNat_enc32_big]
  omega

/-- The digits in base `2 ^ 8` of the number of four bytes are those bytes. -/
theorem enc32_dec32_big (bs : Vector Byte 4) : enc32 (dec32 bs .big) .big = bs := by
  ext k hk : 1
  apply BitVec.eq_of_toNat_eq
  rw [toNat_enc32_big, toNat_dec32_big]
  match k, hk with
  | 0, _ | 1, _ | 2, _ | 3, _ => omega

/-- Settles O14: big-endian is the reading of a word as four digits in base `2 ^ 8`, and little-endian the same on the
reversed bytes. -/
theorem byteOrderRoundTrip : Obligations.ByteOrderRoundTrip := by
  refine ⟨?_, ?_, toNat_dec32_big, ?_⟩
  · rintro w (_ | _)
    · exact dec32_enc32_big w
    · rw [enc32_little, dec32_little, Vector.reverse_reverse, dec32_enc32_big]
  · rintro bs (_ | _)
    · exact enc32_dec32_big bs
    · rw [enc32_little, dec32_little, enc32_dec32_big, Vector.reverse_reverse]
  · intro bs
    simp [dec32_little, toNat_dec32_big]

end Sys2Proof

namespace Sys2Proof.Machine

/-- Settles O6: while the host waits the unit serves (`step_of_hostWaits`), and serving runs the decoded instruction. -/
theorem stepRunsTheDecodedInstruction : Obligations.StepRunsTheDecodedInstruction := by
  intro s i ⟨hprogress, hwaits⟩ hdecode
  simp [step_of_hostWaits hwaits, State.serve, hprogress, hdecode]

/-- Settles O8: `fetch` stops at an issue that meets a transaction in progress. -/
theorem overlappingIssueHasNoMove : Obligations.OverlappingIssueHasNoMove := by
  intro s c d rest hprogress hhost
  simp [step, fetch, hhost, hprogress]

/-! ### The lengths of Table T56 -/

/-- Whole words of `step` samples, two bytes each, are one byte for each `halfstep` samples (R90). -/
theorem div_step_mul_two (d : Depth) (n : Nat) (h : n % d.step = 0) : n / d.step * 2 = n / d.halfstep := by
  cases d <;> simp only [Depth.step, Depth.halfstep, Depth.bits] at h ⊢ <;> omega

/-- A packed word has two bytes (R90). -/
@[simp] theorem packWord_length (d : Depth) (flip : Bool) (bs : List Byte) : (packWord d flip bs).length = 2 := by
  cases flip <;> rfl

/-- An accepted `DIN` gives as many bytes as Table T56 says. -/
theorem bytesOut_length {din : List Byte} {i : Instr} (h : lengthAccepted i din.length = true) :
    (bytesOut din i).length = doutLength i din.length := by
  cases i with
  | i2b | s2b | b2i | b2ia | u8 | regcmd => simp [bytesOut, doutLength]
  | pack flip d =>
    simp only [lengthAccepted, ← step_eq, beq_iff_eq] at h
    simp [bytesOut, doutLength, ← halfstep_eq, ← div_step_mul_two d _ h]
  | cbw => simp +arith [bytesOut, doutLength, cbwSignature]
  | csw =>
    simp only [lengthAccepted, beq_iff_eq] at h
    simp [bytesOut, doutLength, h]

/-- Every instruction makes as many words as Table T56 says. -/
theorem wordsOut_length (din : List Byte) (i : Instr) : (wordsOut din i).length = woutLength i din.length := by
  cases i <;> simp [wordsOut, woutLength]

/-! ### The response as a function of `CMD` and `DIN` -/

/-- The response of an instruction to an input stream. -/
def instrResponse (din : List Byte) (i : Instr) : Response :=
  if lengthAccepted i din.length then replied (bytesOut din i) (wordsOut din i) else faulted .lengthError

/-- The response to a length Table T35 lists. -/
theorem instrResponse_of_accepted {din : List Byte} {i : Instr} (h : lengthAccepted i din.length = true) :
    instrResponse din i = replied (bytesOut din i) (wordsOut din i) := if_pos h

/-- The response to a length Table T35 does not list. -/
theorem instrResponse_of_not_accepted {din : List Byte} {i : Instr} (h : lengthAccepted i din.length = false) :
    instrResponse din i = faulted .lengthError := by
  simp [instrResponse, h]

/-- The response of a transaction (R40 c): of its instruction, or of the fault its descriptor raises (R60, R61). -/
def response (cmd : Cmd) (din : List Byte) : Response :=
  match decode cmd with
  | .instr i => instrResponse din i
  | .illegalOperation => faulted .illegalOperation
  | .illegalField => faulted .illegalField

/-- The transaction is within LEN_MAX (R35): a well-formed one needs both its `DIN` and its `DOUT` to be. -/
def withinLenMax (c : Config) (cmd : Cmd) (din : List Byte) : Bool :=
  match decode cmd with
  | .instr i => admits c din.length && admits c (instrResponse din i).dout.length
  | .illegalOperation => true
  | .illegalField => true

/-- With LEN_MAX unbounded every transaction is within it. -/
theorem withinLenMax_of_unbounded {c : Config} (h : c.lenMax = none) (cmd : Cmd) (din : List Byte) :
    withinLenMax c cmd din = true := by
  unfold withinLenMax
  split <;> simp [admits, h]

/-- An instruction that starts with empty streams replies with its response, or is refused beyond LEN_MAX. -/
theorem exec_of_fresh {s : State} (h : s.Fresh) (i : Instr) :
    exec i s = if s.Admits s.din.length ∧ s.Admits (instrResponse s.din i).dout.length then
      .next (s.reply (instrResponse s.din i)) else .refused .exceedsLenMax := by
  obtain ⟨hdout, hwout⟩ := h
  obtain ⟨hd, he⟩ | ⟨hd, hl, he⟩ | ⟨hd, hl, ho, he⟩ | ⟨hd, hl, ho, he⟩ := exec_cases i s <;> rw [he]
  · rw [if_neg fun h => hd h.1]
  · rw [instrResponse_of_not_accepted hl, if_pos ⟨hd, fun m _ => Nat.zero_le m⟩]
  · rw [hdout] at ho
    rw [instrResponse_of_accepted hl, if_neg fun h => ho h.2]
  · rw [hdout, List.nil_append] at ho
    rw [instrResponse_of_accepted hl, if_pos ⟨hd, ho⟩, hdout, hwout, List.nil_append, List.nil_append]

/-- The step that serves a transaction replies with its response, or is refused beyond LEN_MAX. -/
theorem step_of_serving {s : State} (hs : s.Serving) (hf : s.Fresh) :
    step s = if withinLenMax s.config s.cmd s.din then .next (s.tick.reply (response s.cmd s.din))
      else .refused .exceedsLenMax := by
  obtain ⟨hprogress, hwaits⟩ := hs
  cases hd : decode s.cmd with
  | instr i =>
    rw [stepRunsTheDecodedInstruction s i ⟨hprogress, hwaits⟩ hd, exec_of_fresh (s := s.tick) hf]
    simp only [withinLenMax, response, hd, Bool.and_eq_true, admits_iff]
    rfl
  | illegalOperation | illegalField =>
    simp [step_of_hostWaits hwaits, State.serve, hprogress, withinLenMax, response, hd, State.raise_eq_reply]

/-- Settles O24: `exec_of_fresh` says when an instruction is refused and what it replies; the reply to an accepted
length has the stream lengths of Table T56. -/
theorem lengthRuleOfEveryInstruction : Obligations.LengthRuleOfEveryInstruction := by
  intro i s hfresh
  have hexec := exec_of_fresh hfresh i
  refine ⟨fun hdin => ?_, fun hdin hlen => ?_, fun hdin hlen hdout => ?_, fun hdin hlen hdout => ?_⟩
  · rw [hexec, if_neg fun h => hdin h.1]
  · rw [hexec, instrResponse_of_not_accepted hlen, if_pos ⟨hdin, fun m _ => Nat.zero_le m⟩]
  · rw [← bytesOut_length hlen] at hdout
    rw [hexec, instrResponse_of_accepted hlen, if_neg fun h => hdout h.2]
  · rw [← bytesOut_length hlen] at hdout
    rw [hexec, instrResponse_of_accepted hlen, if_pos ⟨hdin, hdout⟩]
    exact ⟨_, _, rfl, bytesOut_length hlen, wordsOut_length _ _⟩

/-- Settles O37: `step_of_serving` decides and answers by LEN_MAX, `CMD` and `DIN` alone. -/
theorem equalTransactionsEqualResponses : Obligations.EqualTransactionsEqualResponses := by
  intro s t hs ht hfs hft hconfig hcmd hdin
  rw [step_of_serving hs hfs, step_of_serving ht hft, hconfig, hcmd, hdin]
  cases withinLenMax t.config t.cmd t.din
  · exact .inr ⟨rfl, rfl⟩
  · exact .inl ⟨_, rfl, rfl⟩

/-! ### Runs -/

/-- A run takes a step that answers a next state and goes on from there. -/
theorem core_run_succ {s t : State} (h : step s = .next t) (k : Nat) : core.run (k + 1) s = core.run k t := by
  simp only [Host.Core.run, show core.step s = .next t from h]

/-- Two steps carry out one transaction of an idle unit with LEN_MAX unbounded: its issue, then its response (R163). -/
theorem core_run_transaction {s : State} {c : Cmd} {d : List Byte} {rest : List HostAct} (hq : s.Quiet)
    (hu : s.Unbounded) (hh : s.host = .issue c d :: .wait :: rest) (k : Nat) :
    core.run (k + 2) s = core.run k { s with host := rest, responses := s.responses ++ [response c d] } := by
  obtain ⟨hidle, hcmd, hdin, hdout, hwout⟩ := hq
  have hserving : (s.tick.begin c d).Serving := ⟨rfl, by simp [State.HostWaits, hh]⟩
  have hunbounded : (s.tick.begin c d).Unbounded := hu
  have hserve := step_of_serving hserving ⟨rfl, rfl⟩
  rw [if_pos (withinLenMax_of_unbounded hunbounded _ _)] at hserve
  rw [core_run_succ (step_of_issue hidle hh), core_run_succ hserve]
  simp [State.reply, hh, hidle, hcmd, hdin, hdout, hwout]

/-- Settles O41, by induction on the transactions: each takes the two steps of `core_run_transaction`. -/
theorem runAnswersEachTransactionAlone : Obligations.RunAnswersEachTransactionAlone := by
  refine ⟨response, fun s txs hquiet hunbounded hhost => ?_⟩
  induction txs generalizing s with
  | nil => simp [Host.Core.run, ← show s.host = [] from hhost]
  | cons tx txs ih =>
    have hrest := ih { s with host := dutifulHost txs, responses := s.responses ++ [response tx.1 tx.2] }
      hquiet hunbounded rfl
    refine (core_run_transaction hquiet hunbounded hhost (2 * txs.length)).trans (hrest.trans ?_)
    simp

end Sys2Proof.Machine
end

