-- ==== Sys2Proof/Proofs/Encoding.lean ====
section
/-! PROOFS. The descriptor's decoder and encoder (30_encoding.md R50 to R62), the assembler (R63, R64), and the step of an
illegal descriptor (R60, R61, R137). They rest on one reading of a row of Table T53 (`and_mask_eq_pattern_iff`), on the
three cases of the decoder (`decode_cases`), and on what the assembler accepts (`assembleInstr_eq_some`). -/

namespace Sys2Proof

open Sys2Proof.Machine

/-! ### The parts of a field -/

/-- The bits of a value from `k` on are zero, said bit by bit. -/
theorem extractLsb'_high_eq_zero_iff {w : Nat} (x : BitVec w) (k : Nat) :
    x.extractLsb' k (w - k) = 0 ↔ ∀ i, k ≤ i → x.getLsbD i = false := by
  constructor
  · intro h i hi
    by_cases hw : i < w
    · have hbit := congrArg (BitVec.getLsbD · (i - k)) h
      simpa [show i - k < w - k by omega, show k + (i - k) = i by omega] using hbit
    · exact BitVec.getLsbD_of_ge x i (by omega)
  · intro h
    ext i hi
    simp [h]

/-- A conjunction with the mask of the bits from `k` on is zero exactly when those bits are. -/
theorem and_highMask_eq_zero_iff {w : Nat} (x : BitVec w) (k : Nat) :
    x &&& BitVec.allOnes w <<< k = 0 ↔ x.extractLsb' k (w - k) = 0 := by
  rw [extractLsb'_high_eq_zero_iff]
  constructor
  · intro h i hi
    by_cases hw : i < w
    · simpa [hw, Nat.not_lt.2 hi, show i - k < w by omega] using congrArg (BitVec.getLsbD · i) h
    · exact BitVec.getLsbD_of_ge x i (by omega)
  · intro h
    apply BitVec.eq_of_getLsbD_eq
    intro i hi
    by_cases hk : i < k
    · simp [hk]
    · simp [h i (by omega)]

/-- The low `k` bits of a value whose other bits are zero are the value. -/
theorem setWidth_extractLsb'_of_high_eq_zero {w : Nat} (x : BitVec w) (k : Nat) (h : x.extractLsb' k (w - k) = 0) :
    (x.extractLsb' 0 k).setWidth w = x := by
  rw [extractLsb'_high_eq_zero_iff] at h
  apply BitVec.eq_of_getLsbD_eq
  intro i hi
  by_cases hk : i < k
  · simp [hk, hi]
  · simp [hk, h i (by omega)]

/-- A byte order is read back from its bit (R32). -/
@[simp] theorem ByteOrder.ofBit_toBit (be : ByteOrder) : ofBit be.toBit = be := by
  cases be <;> rfl

/-- A bit is the bit of the byte order it selects (R32). -/
@[simp] theorem ByteOrder.toBit_ofBit (x : BitVec 1) : (ofBit x).toBit = x := by
  revert x
  decide

/-- A depth is read back from its selector (R55). -/
@[simp] theorem Depth.ofSelector_selector (d : Depth) : ofSelector d.selector = d := by
  cases d <;> rfl

/-- A selector is the selector of the depth it selects (R55). -/
@[simp] theorem Depth.selector_ofSelector (x : BitVec 2) : (ofSelector x).selector = x := by
  revert x
  decide

/-- A flip bit is read back from whether it is set (T51). -/
@[simp] theorem ite_flip_eq_one (x : BitVec 1) : (if x = 1#1 then 1#1 else 0#1) = x := by
  revert x
  decide

/-! ### The rows of Table T53 -/

/-- Two descriptors are equal exactly when their fields are (R51). -/
theorem toCmd_inj {f g : Fields} : f.toCmd = g.toCmd ↔ f = g :=
  ⟨fun h => by simpa using congrArg fieldsOf h, congrArg Fields.toCmd⟩

/-- A row of Table T53 read field by field: `(c & mask) = match` exactly when `op` names the operation and every field
marked mbz is zero (R53, R61). -/
theorem and_mask_eq_pattern_iff (c : Cmd) (o : Op) :
    c &&& o.mask = o.pattern ↔ (fieldsOf c).op = o.number ∧ (fieldsOf c).wellFormed o = true := by
  have full {w : Nat} (x m : BitVec w) (h : m = BitVec.allOnes w) : x &&& m = x := by rw [h, BitVec.and_allOnes]
  have high16 (x : Word) : x &&& 0xFFFF0000#32 = 0#32 ↔ x.extractLsb' 16 16 = 0#16 :=
    and_highMask_eq_zero_iff x 16
  have high24 (x : Word) : x &&& 0xFFFFFF00#32 = 0#32 ↔ x.extractLsb' 8 24 = 0#24 :=
    and_highMask_eq_zero_iff x 8
  obtain ⟨f, rfl⟩ : ∃ f : Fields, c = f.toCmd := ⟨fieldsOf c, by simp⟩
  rw [← toCmd_fieldsOf o.mask, Fields.toCmd_and, pattern_eq, toCmd_inj, fieldsOf_mask, fieldsOf_toCmd]
  cases o <;>
    simp [Fields.wellFormed, Op.number, and_assoc, high16, high24, full _ 0xF#4 rfl, full _ 1#1 rfl, full _ 3#2 rfl,
      full _ 0xFF#8 rfl, full _ 0xFFFFFFFF#32 rfl]

/-- A row's test is the equation of its match and mask columns (R53). -/
theorem Op.selects_iff (o : Op) (c : Cmd) : o.selects c = true ↔ c &&& o.mask = o.pattern := beq_iff_eq

/-- The encoding of an instruction meets the row of its operation (R53). -/
theorem encode_and_mask (i : Instr) : encode i &&& i.op.mask = i.op.pattern := by
  cases i with
  | i2b be v => exact Laws.EncodeMatch.i2b be v
  | s2b be v => exact Laws.EncodeMatch.s2b be v
  | b2i be => exact Laws.EncodeMatch.b2i be
  | b2ia be => exact Laws.EncodeMatch.b2ia be
  | u8 v => exact Laws.EncodeMatch.u8 v
  | pack flip d => exact Laws.EncodeMatch.pack flip d
  | cbw be flags lun cmdlen tag dtl => exact Laws.EncodeMatch.cbw be flags lun cmdlen tag dtl
  | csw be => exact Laws.EncodeMatch.csw be
  | regcmd code address lov => exact Laws.EncodeMatch.regcmd code address lov

/-! ### Operands -/

/-- The operands of the fields of an instruction give the instruction back (R57). -/
theorem operands_fields (i : Instr) : i.op.operands i.fields = i := by
  cases i with
  | pack flip d => cases flip <;> simp [Instr.op, Instr.fields, Op.operands]
  | i2b | s2b | b2i | b2ia | u8 | cbw | csw | regcmd =>
    simp [Instr.op, Instr.fields, Op.operands, BitVec.extractLsb'_setWidth_of_le]

/-- The operation of an assembled instruction is the one it was assembled for. -/
@[simp] theorem Op.operands_op (o : Op) (f : Fields) : (o.operands f).op = o := by
  cases o <;> rfl

/-- Well-formed fields of an operation are the fields of the instruction its operands make: no field is dropped (R61). -/
theorem fields_operands {f : Fields} {o : Op} (hop : f.op = o.number) (hwf : f.wellFormed o = true) :
    (o.operands f).fields = f := by
  have low16 (x : Word) (h : x.extractLsb' 16 16 = 0#16) : (x.extractLsb' 0 16).setWidth 32 = x :=
    setWidth_extractLsb'_of_high_eq_zero x 16 h
  have low8 (x : Word) (h : x.extractLsb' 8 24 = 0#24) : (x.extractLsb' 0 8).setWidth 32 = x :=
    setWidth_extractLsb'_of_high_eq_zero x 8 h
  obtain ⟨op, be, flip, dsel, b0, b1, b2, a, b⟩ := f
  cases o <;> simp_all [Fields.wellFormed, Op.operands, Instr.fields, Op.number]

/-! ### The three answers of the decoder -/

/-- The reserved `op` fields are those that no operation is found by (R52, R60). -/
theorem reservedOp_iff (c : Cmd) : reservedOp c = true ↔ Op.ofNumber (fieldsOf c).op = none := by
  rw [Op.ofNumber_eq_none]
  simp [reservedOp, fieldsOf]

/-- Every `op` field is reserved or names an operation (R52, R60). -/
theorem reservedOp_or_namesOp (c : Cmd) : reservedOp c = true ∨ ∃ o, namesOp c o := by
  rw [reservedOp_iff]
  cases h : Op.ofNumber (fieldsOf c).op with
  | none => exact .inl rfl
  | some o => exact .inr ⟨o, (Op.number_of_ofNumber h).symm⟩

/-- What the decoder answers for a reserved `op` field (R60). -/
theorem decode_of_reservedOp {c : Cmd} (h : reservedOp c = true) : decode c = .illegalOperation := by
  simp [decode, (reservedOp_iff c).1 h]

/-- What the decoder answers for a descriptor that meets a row (R53, R57). -/
theorem decode_of_row {c : Cmd} {o : Op} (h : c &&& o.mask = o.pattern) :
    decode c = .instr (o.operands (fieldsOf c)) := by
  obtain ⟨hop, -⟩ := (and_mask_eq_pattern_iff c o).1 h
  simp [decode, hop, (o.selects_iff c).2 h]

/-- What the decoder answers for a defined `op` field whose row is not met (R61). -/
theorem decode_of_not_row {c : Cmd} {o : Op} (hop : namesOp c o) (h : c &&& o.mask ≠ o.pattern) :
    decode c = .illegalField := by
  have hfield : (fieldsOf c).op = o.number := hop
  simp [decode, hfield, mt (o.selects_iff c).1 h]

/-- Every descriptor falls under one of the three cases of R62. -/
theorem decode_cases (c : Cmd) :
    (reservedOp c = true ∧ decode c = .illegalOperation) ∨
    (∃ o, namesOp c o ∧ c &&& o.mask ≠ o.pattern ∧ decode c = .illegalField) ∨
    (∃ o : Op, c &&& o.mask = o.pattern ∧ decode c = .instr (o.operands (fieldsOf c))) := by
  obtain hres | ⟨o, hop⟩ := reservedOp_or_namesOp c
  · exact .inl ⟨hres, decode_of_reservedOp hres⟩
  · by_cases hrow : c &&& o.mask = o.pattern
    · exact .inr (.inr ⟨o, hrow, decode_of_row hrow⟩)
    · exact .inr (.inl ⟨o, hop, hrow, decode_of_not_row hop hrow⟩)

/-- The decoder answers an instruction only for a descriptor that meets a row, and then its operands (R53, R57). -/
theorem row_of_decode {c : Cmd} {i : Instr} (h : decode c = .instr i) :
    c &&& i.op.mask = i.op.pattern ∧ i = i.op.operands (fieldsOf c) := by
  obtain ⟨-, hd⟩ | ⟨_, -, -, hd⟩ | ⟨o, hrow, hd⟩ := decode_cases c <;> rw [hd] at h <;> cases h
  simpa using hrow

/-! ### The descriptor -/

/-- Settles O2: the encoding meets its operation's row (`encode_and_mask`), so it decodes to the operands of its own
fields, which are the instruction's (`operands_fields`). -/
theorem decodeEncode : Obligations.DecodeEncode := by
  intro i
  rw [decode_of_row (encode_and_mask i), fieldsOf_encode, operands_fields]

/-- Settles O3: a descriptor that decodes is well formed, so the fields of what it decodes to are its own
(`fields_operands`), and the fields are all of its bits (`toCmd_fieldsOf`). -/
theorem encodeDecode : Obligations.EncodeDecode := by
  intro c i h
  obtain ⟨hrow, hi⟩ := row_of_decode h
  obtain ⟨hop, hwf⟩ := (and_mask_eq_pattern_iff c i.op).1 hrow
  rw [encode, hi, fields_operands hop hwf, toCmd_fieldsOf]

/-- Settles O5: `and_mask_eq_pattern_iff` without its condition on `op`, which is given. -/
theorem maskAgreesWithFields : Obligations.MaskAgreesWithFields := by
  intro c o hop
  rw [and_mask_eq_pattern_iff]
  exact and_iff_right hop

/-- No two operations have one number (R52). -/
theorem Op.number_inj {o o' : Op} (h : o.number = o'.number) : o = o' :=
  Option.some_inj.1 (by rw [← Op.ofNumber_number o, h, Op.ofNumber_number])

/-- Settles O4: `decode_cases` gives each case its descriptors, and the three answers differ; two rows need two `op`
fields. -/
theorem decodingIsTotal : Obligations.DecodingIsTotal := by
  refine ⟨fun c => ⟨fun h => ?_, decode_of_reservedOp⟩, fun c => ⟨fun h => ?_, ?_⟩, fun c o => ⟨fun h => ?_, ?_⟩,
    fun c o o' h h' => ?_⟩
  · obtain ⟨hres, -⟩ | ⟨_, -, -, hd⟩ | ⟨_, -, hd⟩ := decode_cases c
    · exact hres
    · simp [hd] at h
    · simp [hd] at h
  · obtain ⟨-, hd⟩ | ⟨o, hop, hrow, -⟩ | ⟨_, -, hd⟩ := decode_cases c
    · simp [hd] at h
    · exact ⟨o, hop, hrow⟩
    · simp [hd] at h
  · rintro ⟨o, hop, hrow⟩
    exact decode_of_not_row hop hrow
  · exact ⟨_, decode_of_row h, o.operands_op _⟩
  · rintro ⟨i, hd, rfl⟩
    exact (row_of_decode hd).1
  · obtain ⟨hop, -⟩ := (and_mask_eq_pattern_iff c o).1 h
    obtain ⟨hop', -⟩ := (and_mask_eq_pattern_iff c o').1 h'
    exact Op.number_inj (hop.symm.trans hop')

/-- Settles O1: seven closed runs of the decoder. -/
theorem knownWordsDecode : Obligations.KnownWordsDecode := by
  unfold Obligations.KnownWordsDecode
  decide

/-! ### The assembler -/

/-- A written name stands for an operation exactly when it is one of the names R59 and R64 give it. -/
theorem Op.ofName_eq_some {name : String} {o : Op} : Op.ofName name = some o ↔ name ∈ writtenNames o := by
  constructor
  · intro h
    obtain ⟨row, hfind, rfl⟩ := Option.map_eq_some_iff.1 h
    have hname : row.1 = name := by simpa using List.find?_some hfind
    have hrows : ∀ row ∈ mnemonicTable, row.1 ∈ writtenNames row.2 := by decide
    exact hname ▸ hrows row (List.mem_of_find?_eq_some hfind)
  · intro h
    have hnames : ∀ n ∈ writtenNames o, Op.ofName n = some o := by cases o <;> decide
    exact hnames name h

/-- Every operation has a written name (R59). -/
theorem exists_mem_writtenNames (o : Op) : ∃ name, name ∈ writtenNames o := by
  cases o <;> exact ⟨_, List.mem_cons_self⟩

/-- The assembler makes an instruction exactly from its operation, the qualifiers R63 writes it with and its operands as
numbers under their names. -/
theorem assembleInstr_eq_some {o : Op} {qs : List Qualifier} {operands : List (OperandName × Nat)} {i : Instr} :
    assembleInstr o qs operands = some i ↔ o = i.op ∧ qs = writtenQualifiers i ∧ operands = writtenOperands i := by
  constructor
  · intro h
    unfold assembleInstr at h
    split at h <;>
      simp only [Option.bind_eq_bind, Option.bind_eq_some_iff, Option.pure_def, Option.some.injEq,
        Option.ite_none_right_eq_some, List.isEmpty_iff, Prod.exists, reduceCtorEq, orderOf_eq_some, fit_eq_some,
        packQualifiers_eq_some] at h
    case h_1 | h_2 =>
      obtain ⟨be, rfl, v, rfl, rfl⟩ := h
      exact ⟨rfl, rfl, rfl⟩
    case h_3 | h_4 | h_8 =>
      obtain ⟨be, rfl, rfl⟩ := h
      exact ⟨rfl, rfl, rfl⟩
    case h_5 =>
      obtain ⟨rfl, v, rfl, rfl⟩ := h
      exact ⟨rfl, rfl, rfl⟩
    case h_6 =>
      obtain ⟨d, flip, rfl, rfl⟩ := h
      exact ⟨rfl, rfl, rfl⟩
    case h_7 =>
      obtain ⟨be, rfl, flags, rfl, lun, rfl, cmdlen, rfl, tag, rfl, dtl, rfl, rfl⟩ := h
      exact ⟨rfl, rfl, rfl⟩
    case h_9 =>
      obtain ⟨rfl, code, rfl, address, rfl, lov, rfl, rfl⟩ := h
      exact ⟨rfl, rfl, rfl⟩
  · rintro ⟨rfl, rfl, rfl⟩
    have order (be : ByteOrder) : orderOf [orderQualifier be] = some be := orderOf_eq_some.2 rfl
    have value {n : Nat} (x : BitVec n) : fit n x.toNat = some x := fit_eq_some.2 rfl
    cases i with
    | pack flip d => simp [assembleInstr, Instr.op, writtenOperands, packQualifiers_eq_some.2 rfl]
    | i2b | s2b | b2i | b2ia | u8 | cbw | csw | regcmd =>
      simp [assembleInstr, Instr.op, writtenOperands, writtenQualifiers, order, value]

/-- Settles O33: `AsmLine.assemble_eq_some` takes an accepted line apart, `assembleInstr_eq_some` says what it writes, and
its descriptor decodes to the instruction by O2. -/
theorem assemblerIsSound : Obligations.AssemblerIsSound := by
  intro l c din h
  obtain ⟨o, i, hname, hinstr, rfl, hinput⟩ := AsmLine.assemble_eq_some.1 h
  obtain ⟨rfl, hqualifiers, hoperands⟩ := assembleInstr_eq_some.1 hinstr
  exact ⟨i, decodeEncode i, rfl, hname, Op.ofName_eq_some.1 hname, hqualifiers, hoperands, hinput.symm⟩

/-- Settles O34: the line with a name of the operation, the written qualifiers and operands, and the bytes as numbers. -/
theorem assemblerIsComplete : Obligations.AssemblerIsComplete := by
  intro i din
  obtain ⟨name, hname⟩ := exists_mem_writtenNames i.op
  refine ⟨{ mnemonic := name, qualifiers := writtenQualifiers i, operands := writtenOperands i,
            input := din.map (fun b => b.toNat) }, ?_⟩
  have hinstr := (assembleInstr_eq_some (i := i)).2 ⟨rfl, rfl, rfl⟩
  exact AsmLine.assemble_eq_some.2 ⟨i.op, i, Op.ofName_eq_some.2 hname, hinstr, rfl, rfl⟩

end Sys2Proof

namespace Sys2Proof.Machine

/-- Settles O13: while the host waits the unit serves (`step_of_hostWaits`), and a descriptor that decodes to no
instruction raises its fault before any check of `DIN`; raising is replying with the fault. -/
theorem illegalDescriptorRaises : Obligations.IllegalDescriptorRaises := by
  intro s ⟨hprogress, hwaits⟩
  refine ⟨fun hres => ?_, fun o hop hwf => ?_⟩
  · simp [step_of_hostWaits hwaits, State.serve, hprogress, decode_of_reservedOp hres, State.raise_eq_reply]
  · have hrow : s.cmd &&& o.mask ≠ o.pattern := by
      rw [Ne, maskAgreesWithFields s.cmd o hop, hwf]
      exact Bool.false_ne_true
    simp [step_of_hostWaits hwaits, State.serve, hprogress, decode_of_not_row hop hrow, State.raise_eq_reply]

end Sys2Proof.Machine
end

