-- ==== Sys2Proof/Proofs/EndianCodec.lean ====
section
/-! PROOFS. The Integer/Endian Codec (41_endian_codec.md R70 to R75, R78): I2B, S2B, B2I, B2IA and U8, their round trips,
and the framer's use of them. Each rests on the row of Table T53 (`decode_of_row`, `decode_of_not_row`), on what an
instruction replies to an accepted and to another length (`exec_of_accepted`, `exec_of_not_accepted`), and on the reading
of words from bytes (`wordOf`, `chunks`). -/

namespace Sys2Proof

/-! ### Operands as bits of the descriptor -/

/-- The byte order of a descriptor is its bit 4 (Table T51). -/
theorem ofBit_be_fieldsOf (c : Cmd) :
    ByteOrder.ofBit (fieldsOf c).be = if c.getLsbD 4 then .big else .little := by
  have hbit (x : BitVec 1) : x = 1 ↔ x.getLsbD 0 = true := by
    revert x
    decide
  simp only [ByteOrder.ofBit, hbit]
  simp [fieldsOf]

/-- The low bits of field `a` are the bits of the descriptor from 32 on (Table T51). -/
theorem extractLsb'_a_fieldsOf (c : Cmd) {n : Nat} (h : n ≤ 32) :
    (fieldsOf c).a.extractLsb' 0 n = c.extractLsb' 32 n := by
  ext i hi
  simp [fieldsOf, show i < 32 by omega]

/-! ### Words and bytes -/

/-- A word read back in the other byte order has its bytes reversed (R75). -/
theorem dec32_enc32_otherOrder (w : Word) (be : ByteOrder) :
    dec32 (enc32 w be) (Machine.otherOrder be) = Machine.byteReversed w := by
  cases be <;> rfl

end Sys2Proof

namespace Sys2Proof.Machine

/-- Encoding the word of four bytes gives the bytes back (R32). -/
theorem enc32_wordOf (be : ByteOrder) {bs : List Byte} (h : bs.length = 4) :
    (enc32 (wordOf be bs) be).toList = bs := by
  obtain ⟨v, rfl⟩ : ∃ v : Vector Byte 4, v.toList = bs := ⟨⟨bs.toArray, h⟩, rfl⟩
  obtain ⟨-, encode_decode, -⟩ := byteOrderRoundTrip
  rw [wordOf_toList, encode_decode]

/-- Four consecutive bytes of a stream, one by one. -/
theorem take_four_drop {bs : List Byte} {k : Nat} (h : k + 4 ≤ bs.length) :
    (bs.drop k).take 4 = [byteAt bs k, byteAt bs (k + 1), byteAt bs (k + 2), byteAt bs (k + 3)] := by
  have hbyte (j : Nat) (hj : j < bs.length) : bs.drop j = byteAt bs j :: bs.drop (j + 1) := by
    rw [List.drop_eq_getElem_cons hj, byteAt, List.getD_eq_getElem _ _ hj]
  rw [hbyte k (by omega), hbyte (k + 1) (by omega), hbyte (k + 2) (by omega), hbyte (k + 3) (by omega)]
  rfl

/-- The chunks of a concatenation of groups of one size are the groups. -/
theorem chunks_flatten {size : Nat} {groups : List (List Byte)} (h : ∀ g ∈ groups, g.length = size) :
    chunks size groups.length groups.flatten = groups := by
  induction groups with
  | nil => rfl
  | cons g gs ih =>
    obtain ⟨hg, hgs⟩ := List.forall_mem_cons.1 h
    simp only [List.length_cons, List.flatten_cons, chunks]
    rw [List.take_left' hg, List.drop_left' hg, ih hgs]

/-! ### What an instruction replies -/

/-- The reply to a length Table T35 does not list (R35), whatever the output streams hold. -/
theorem exec_of_not_accepted {i : Instr} {s : State} (hd : s.Admits s.din.length)
    (hl : lengthAccepted i s.din.length = false) : exec i s = .next (s.reply (faulted .lengthError)) := by
  rw [exec_eq, State.accept_of_admits hd, hl]
  rfl

/-- The reply to a length Table T35 lists, when `DIN` and `DOUT` are within LEN_MAX (R35, R56). -/
theorem exec_of_accepted {i : Instr} {s : State} (hf : s.Fresh) (hl : lengthAccepted i s.din.length = true)
    (hd : s.Admits s.din.length) (ho : s.Admits (doutLength i s.din.length)) :
    exec i s = .next (s.reply (replied (bytesOut s.din i) (wordsOut s.din i))) := by
  rw [← bytesOut_length hl] at ho
  rw [exec_of_fresh hf, instrResponse_of_accepted hl, if_pos ⟨hd, ho⟩]

/-- The empty stream is within every LEN_MAX. -/
theorem State.admits_zero (s : State) : s.Admits 0 := fun m _ => Nat.zero_le m

/-- The reply to an empty `DIN`, where Table T35 lists it. -/
theorem exec_of_empty {i : Instr} {s : State} (hf : s.Fresh) (hdin : s.din = []) (hl : lengthAccepted i 0 = true)
    (h : s.Admits (doutLength i 0)) : exec i s = .next (s.reply (replied (bytesOut [] i) (wordsOut [] i))) := by
  have hlen : s.din.length = 0 := by rw [hdin]; rfl
  rw [exec_of_accepted hf (by rwa [hlen]) (by rw [hlen]; exact s.admits_zero) (by rwa [hlen]), hdin]

/-- I2B replies with the bytes of its word (R70). -/
theorem exec_i2b {s : State} (hf : s.Fresh) (hdin : s.din = []) (h : s.Admits 4) (be : ByteOrder) (w : Word) :
    exec (.i2b be w) s = .next (s.reply (replied (enc32 w be).toList [])) :=
  exec_of_empty hf hdin rfl h

/-- S2B replies with the bytes of its half (R71). -/
theorem exec_s2b {s : State} (hf : s.Fresh) (hdin : s.din = []) (h : s.Admits 2) (be : ByteOrder) (v : Half) :
    exec (.s2b be v) s = .next (s.reply (replied (enc16 v be).toList [])) :=
  exec_of_empty hf hdin rfl h

/-- U8 replies with its byte (R74). -/
theorem exec_u8 {s : State} (hf : s.Fresh) (hdin : s.din = []) (h : s.Admits 1) (v : Byte) :
    exec (.u8 v) s = .next (s.reply (replied [v] [])) :=
  exec_of_empty hf hdin rfl h

/-- B2I replies with the word of its four bytes (R72). -/
theorem exec_b2i {s : State} (hf : s.Fresh) (hlen : s.din.length = 4) (h : s.Admits 4) (be : ByteOrder) :
    exec (.b2i be) s = .next (s.reply (replied [] [wordOf be s.din])) := by
  have hexec := exec_of_accepted (i := .b2i be) hf (beq_iff_eq.2 hlen) (by rwa [hlen]) s.admits_zero
  rw [hexec, wordsOut, List.take_of_length_le hlen.le, bytesOut]

/-- B2IA replies with the words of its groups of four bytes (R73). -/
theorem exec_b2ia {s : State} (hf : s.Fresh) (hlen : s.din.length % 4 = 0) (h : s.Admits s.din.length)
    (be : ByteOrder) :
    exec (.b2ia be) s = .next (s.reply (replied [] ((chunks 4 (s.din.length / 4) s.din).map (wordOf be)))) :=
  exec_of_accepted hf (beq_iff_eq.2 hlen) h s.admits_zero

/-- Word `k` of B2IA is made of the bytes `4k` to `4k+3` (R73). -/
theorem chunks_map_wordOf_getElem? (be : ByteOrder) {bs : List Byte} {k : Nat} (h : k < bs.length / 4) :
    ((chunks 4 (bs.length / 4) bs).map (wordOf be))[k]? = some (wordOf be
      [byteAt bs (4 * k), byteAt bs (4 * k + 1), byteAt bs (4 * k + 2), byteAt bs (4 * k + 3)]) := by
  rw [List.getElem?_map, chunks_getElem? _ _ _ _ h, Option.map_some, Nat.mul_comm k 4, take_four_drop (by omega)]

/-! ### The five operations -/

/-- Settles O15: the row of I2B in Table T53, `exec_i2b` in either byte order, and the length fault. -/
theorem i2bSerialisesAWord : Obligations.I2bSerialisesAWord := by
  refine ⟨fun c hrow => ?_, fun c hop hrow => decode_of_not_row (o := .i2b) hop hrow, fun s v hf hdin h => ?_,
    fun s be v hdin h => exec_of_not_accepted h (by simpa [lengthAccepted] using hdin)⟩
  · rw [decode_of_row (o := .i2b) hrow, Op.operands, ofBit_be_fieldsOf]
    rfl
  · exact ⟨exec_i2b hf hdin h .big v, exec_i2b hf hdin h .little v⟩

/-- Settles O16: the row of S2B in Table T53, `exec_s2b` in either byte order, and the length fault. -/
theorem s2bSerialisesAHalf : Obligations.S2bSerialisesAHalf := by
  refine ⟨fun c hrow => ?_, fun c hop hrow => decode_of_not_row (o := .s2b) hop hrow, fun s v hf hdin h => ?_,
    fun s be v hdin h => exec_of_not_accepted h (by simpa [lengthAccepted] using hdin)⟩
  · rw [decode_of_row (o := .s2b) hrow, Op.operands, ofBit_be_fieldsOf, extractLsb'_a_fieldsOf c (by decide)]
  · exact ⟨exec_s2b hf hdin h .big v, exec_s2b hf hdin h .little v⟩

/-- Settles O17: the row of B2I in Table T53, `exec_b2i` in either byte order, and the length fault. -/
theorem b2iReadsAWord : Obligations.B2iReadsAWord := by
  refine ⟨fun c hrow => ?_, fun c hop hrow => decode_of_not_row (o := .b2i) hop hrow,
    fun s b0 b1 b2 b3 hf hdin h => ?_,
    fun s be hlen h => exec_of_not_accepted h (by simpa [lengthAccepted] using hlen)⟩
  · rw [decode_of_row (o := .b2i) hrow, Op.operands, ofBit_be_fieldsOf]
  · have hexec (be : ByteOrder) := exec_b2i hf (by rw [hdin]; rfl) h be
    rw [hdin] at hexec
    exact ⟨hexec .big, hexec .little⟩

/-- Settles O18: the row of B2IA in Table T53, `exec_b2ia` and its words one by one (`chunks_map_wordOf_getElem?`), and the
length fault. -/
theorem b2iaReadsConsecutiveWords : Obligations.B2iaReadsConsecutiveWords := by
  refine ⟨fun c hrow => ?_, fun c hop hrow => decode_of_not_row (o := .b2ia) hop hrow, fun s hf hlen h => ?_,
    fun s be hlen h => exec_of_not_accepted h (by simpa [lengthAccepted] using hlen)⟩
  · rw [decode_of_row (o := .b2ia) hrow, Op.operands, ofBit_be_fieldsOf]
  · exact ⟨_, _, exec_b2ia hf hlen h .big, exec_b2ia hf hlen h .little, by simp, by simp, fun k hk =>
      ⟨chunks_map_wordOf_getElem? .big hk, chunks_map_wordOf_getElem? .little hk⟩⟩

/-- Settles O19: the row of U8 in Table T53, `exec_u8`, and the length fault. -/
theorem u8ProducesOneByte : Obligations.U8ProducesOneByte := by
  refine ⟨fun c hrow => ?_, fun c hop hrow => decode_of_not_row (o := .u8) hop hrow,
    fun s v hf hdin h => exec_u8 hf hdin h v,
    fun s v hdin h => exec_of_not_accepted h (by simpa [lengthAccepted] using hdin)⟩
  rw [decode_of_row (o := .u8) hrow, Op.operands, extractLsb'_a_fieldsOf c (by decide)]

/-! ### Laws -/

/-- B2I in any byte order on the bytes of I2B (R75). -/
theorem exec_b2i_enc32 {t : State} (hf : t.Fresh) (h : t.Admits 4) (w : Word) (be be' : ByteOrder) :
    exec (.b2i be') { t with din := (enc32 w be).toList } =
      .next (t.reply (replied [] [dec32 (enc32 w be) be'])) := by
  rw [← wordOf_toList]
  exact exec_b2i (s := { t with din := (enc32 w be).toList }) hf Vector.length_toList h be'

/-- B2IA on a concatenation of four-byte groups replies with the word of each (R75). -/
theorem exec_b2ia_flatten {s : State} (hf : s.Fresh) (hu : s.Unbounded) (be : ByteOrder) {groups : List (List Byte)}
    (h : ∀ g ∈ groups, g.length = 4) :
    exec (.b2ia be) { s with din := groups.flatten } = .next (s.reply (replied [] (groups.map (wordOf be)))) := by
  have hlen : groups.flatten.length = 4 * groups.length := by
    rw [List.length_flatten, List.map_congr_left h, List.map_const', List.sum_replicate, smul_eq_mul, Nat.mul_comm]
  have hexec := exec_b2ia (s := { s with din := groups.flatten }) hf (by simp only [hlen]; omega)
    (State.Unbounded.admits hu _) be
  simp only [hlen, Nat.mul_div_cancel_left _ (show 0 < 4 by decide), chunks_flatten h] at hexec
  exact hexec

/-- Settles O25: decoding the bytes of a word gives the word or its reversal (`exec_b2i_enc32`), encoding the word of four
bytes gives the bytes (`enc32_wordOf`), and B2IA takes a concatenation group by group (`exec_b2ia_flatten`). -/
theorem codecRoundTrips : Obligations.CodecRoundTrips := by
  obtain ⟨decode_encode, -⟩ := byteOrderRoundTrip
  refine ⟨fun s t w be hs ht hus hut hdin => ?_, fun s t be hs ht hus hut hlen hdin => ?_,
    fun s be groups hf hu hgroups => ?_⟩
  · have hread := exec_b2i_enc32 ht (hut.admits 4) w be
    refine ⟨_, exec_i2b hs hdin (hus.admits 4) be w, ?_, ?_⟩
    · rw [hread, decode_encode]
    · rw [hread, dec32_enc32_otherOrder]
  · refine ⟨_, exec_b2i hs hlen (hus.admits 4) be, ?_⟩
    rw [exec_i2b ht hdin (hut.admits 4), enc32_wordOf be hlen]
  · refine ⟨_, exec_b2ia_flatten hf hu be hgroups, List.length_map _, fun k g w hg hw => ?_⟩
    obtain rfl : wordOf be g = w := by simpa [hg] using hw
    exact exec_b2i (s := { s with din := g }) hf (hgroups g (List.mem_of_getElem? hg)) (State.Unbounded.admits hu 4) be

/-- Settles O31: the streams of the framer's instructions (`bytesOut`, `wordsOut`) are made of the encodings and words that
`exec_i2b`, `exec_s2b` and `exec_b2i` reply with. -/
theorem framerUsesTheCodec : Obligations.FramerUsesTheCodec := by
  intro s hf hu
  have hadmits := hu.admits
  refine ⟨fun be flags lun cmdlen tag dtl => ?_, fun be hlen => ?_, fun code address lov hdin => ?_⟩
  · refine ⟨_, _, _, exec_of_accepted hf rfl (hadmits _) (hadmits _),
      exec_i2b (s := { s with din := [] }) hf rfl (hadmits 4) be tag,
      exec_i2b (s := { s with din := [] }) hf rfl (hadmits 4) be dtl, ?_, ?_⟩ <;>
      simp [bytesOut, cbwSignature, List.drop_append]
  · have hread (k : Nat) (hk : k + 4 ≤ 13) := exec_b2i (s := { s with din := (s.din.drop k).take 4 }) hf
      (by simp only [List.length_take, List.length_drop]; omega) (hadmits 4) be
    exact ⟨_, _, _, exec_of_accepted hf (beq_iff_eq.2 hlen) (hadmits _) (hadmits _), hread 4 (by decide),
      hread 8 (by decide)⟩
  · refine ⟨_, _, _, exec_of_accepted hf (by rw [hdin]; rfl) (hadmits _) (hadmits _),
      exec_i2b hf hdin (hadmits 4) .big address, exec_s2b hf hdin (hadmits 2) .big lov, ?_, ?_⟩ <;>
      rfl

end Sys2Proof.Machine
end

