-- ==== Sys2Proof/Proofs/BytePacker.lean ====
section
/-! PROOFS. The Byte Packer (42_byte_packer.md R90 to R96): PACK. Its bytes are read bit by bit (`packByte_getLsbD`) and
word by word (`bytesOut_pack_byteAt`); the laws of R96 follow from three facts about its stream: it sees a sample only
through `nz` (`bytesOut_pack_congr`), it takes whole words one after another (`bytesOut_pack_append`), and the flip
exchanges the bytes of each word (`bytesOut_pack_flip`). -/

namespace Sys2Proof

open Sys2Proof.Machine

/-! ### The bits of a packed byte -/

/-- The depth as a number of bits is the table's depth (R55). -/
theorem bits_eq (d : Depth) : d.bits = depthBits d := by cases d <;> rfl

/-- A depth has at least one bit. -/
theorem Depth.bits_pos (d : Depth) : 0 < d.bits := by cases d <;> decide

/-- The fields of one byte fill its eight bits (R90, R91). -/
theorem Depth.bits_mul_halfstep (d : Depth) : d.bits * d.halfstep = 8 := by cases d <;> rfl

/-- Two bytes of samples make one word (R90). -/
theorem Depth.step_eq_halfstep_add (d : Depth) : d.step = d.halfstep + d.halfstep := by cases d <;> rfl

/-- A field is the mask or nothing at every depth: at depth 8 the mask is 0xFF (R93, R95). -/
theorem sampleField_eq (d : Depth) (s : Byte) : sampleField d s = if nz s then d.fieldMask else 0 := by
  cases d
  case d8 => by_cases h : s = 0 <;> simp [sampleField, Config.depth8Byte, Depth.fieldMask, Depth.bits, nz, h]
  all_goals rfl

/-- The mask of a field is its lowest `depth` bits (R91). -/
theorem Depth.getLsbD_fieldMask (d : Depth) (n : Nat) : d.fieldMask.getLsbD n = decide (n < d.bits) := by
  by_cases hn : n < 8
  · have hbits : ∀ m < 8, d.fieldMask.getLsbD m = decide (m < d.bits) := by cases d <;> decide
    exact hbits n hn
  · have hle : d.bits ≤ 8 := by cases d <;> decide
    rw [BitVec.getLsbD_of_ge _ _ (by omega), decide_eq_false (by omega)]

/-- Bit `n` of a byte lies in field `n / depth`: a field shifted to place `j` reaches it exactly when that
is `j` (R93). -/
theorem getLsbD_sampleField_shift (d : Depth) (s : Byte) (j : Nat) {n : Nat} (hn : n < 8) :
    (sampleField d s <<< (d.bits * j)).getLsbD n = (decide (n / d.bits = j) && nz s) := by
  have hplace : n / d.bits = j ↔ ¬ n < d.bits * j ∧ n - d.bits * j < d.bits := by
    rw [Nat.div_eq_iff d.bits_pos, Nat.mul_comm j]
    have := d.bits_pos
    omega
  rw [sampleField_eq, BitVec.getLsbD_shiftLeft]
  cases nz s
  · simp
  · simp only [if_true, Depth.getLsbD_fieldMask, hn, hplace, Bool.decide_and, decide_not, decide_true, Bool.true_and,
      Bool.and_true]

/-- Bit `n` of the OR of fields `j`, `j + 1`, … is that of field `n / depth`, if it is among them (R93). -/
theorem packFields_getLsbD (d : Depth) (j : Nat) (bs : List Byte) {n : Nat} (hn : n < 8) :
    (packFields d j bs).getLsbD n = (decide (j ≤ n / d.bits) && nz (byteAt bs (n / d.bits - j))) := by
  induction bs generalizing j with
  | nil => simp [packFields, byteAt, nz]
  | cons s rest ih =>
    rw [packFields, BitVec.getLsbD_or, getLsbD_sampleField_shift d s j hn, ih]
    obtain hlt | heq | hgt := Nat.lt_trichotomy (n / d.bits) j
    · simp [hlt.ne, hlt.not_ge, show ¬ j + 1 ≤ n / d.bits by omega]
    · simp [heq, byteAt]
    · have hrest : n / d.bits - j = n / d.bits - (j + 1) + 1 := by omega
      simp [hgt.ne', hgt.le, show j + 1 ≤ n / d.bits from hgt, hrest, byteAt]

/-- Bit `depth*j + t` of a packed byte is set exactly when sample `j` is not zero (R93). -/
theorem packByte_getLsbD (d : Depth) (bs : List Byte) {j t : Nat} (hj : j < d.halfstep) (ht : t < d.bits) :
    (packByte d bs).getLsbD (d.bits * j + t) = (byteAt bs j != 0) := by
  have hbit : d.bits * j + t < 8 := by
    have := Nat.mul_le_mul_left d.bits (show j + 1 ≤ d.halfstep from hj)
    rw [d.bits_mul_halfstep, Nat.mul_succ] at this
    omega
  have hfield : (d.bits * j + t) / d.bits = j := by
    rw [Nat.mul_add_div d.bits_pos, Nat.div_eq_of_lt ht, Nat.add_zero]
  rw [packByte, packFields_getLsbD d 0 bs hbit, hfield]
  rfl

/-- Whether a sample is zero, read from the list of which samples are (R8). -/
theorem nz_byteAt (bs : List Byte) (j : Nat) : nz (byteAt bs j) = (bs.map nz).getD j false :=
  (List.getD_map bs 0 nz).symm

/-- A packed byte looks only at which samples are zero (R93, R95). -/
theorem packByte_congr (d : Depth) {xs ys : List Byte} (h : xs.map nz = ys.map nz) : packByte d xs = packByte d ys := by
  have hnz (j : Nat) : nz (byteAt xs j) = nz (byteAt ys j) := by rw [nz_byteAt, nz_byteAt, h]
  apply BitVec.eq_of_getLsbD_eq
  intro n hn
  rw [packByte, packByte, packFields_getLsbD d 0 xs hn, packFields_getLsbD d 0 ys hn, hnz]

/-- A packed word looks only at which samples are zero (R93, R95). -/
theorem packWord_congr (d : Depth) (flip : Bool) {xs ys : List Byte} (h : xs.map nz = ys.map nz) :
    packWord d flip xs = packWord d flip ys := by
  have ha := packByte_congr d (xs := xs.take d.halfstep) (ys := ys.take d.halfstep) (by simp [List.map_take, h])
  have hb := packByte_congr d (xs := xs.drop d.halfstep) (ys := ys.drop d.halfstep) (by simp [List.map_drop, h])
  simp only [packWord, ha, hb]

/-- A word of samples alike in being zero or not has two bytes alike. -/
theorem packWord_replicate (d : Depth) (flip : Bool) :
    packWord d flip (List.replicate d.step 255) = List.replicate 2 0xFF ∧
    packWord d flip (List.replicate d.step 0) = List.replicate 2 0x00 := by
  cases d <;> cases flip <;> decide

/-- The two bytes of a word, exchanged by the flip (R94). -/
theorem packWord_byteAt (d : Depth) (flip : Bool) (bs : List Byte) :
    byteAt (packWord d flip bs) (if flip then 1 else 0) = packByte d (bs.take d.halfstep) ∧
    byteAt (packWord d flip bs) (if flip then 0 else 1) = packByte d (bs.drop d.halfstep) := by
  cases flip <;> exact ⟨rfl, rfl⟩

/-- The flip of a descriptor is its bit 5 (Table T51). -/
theorem flip_fieldsOf (c : Cmd) : ((fieldsOf c).flip == 1) = c.getLsbD 5 := by
  have hbit (x : BitVec 1) : (x == 1) = x.getLsbD 0 := by
    revert x
    decide
  rw [hbit]
  simp [fieldsOf]

end Sys2Proof

namespace Sys2Proof.Machine

/-! ### Bytes of streams -/

/-- A byte of the rest of a stream. -/
theorem byteAt_drop (bs : List Byte) (m j : Nat) : byteAt (bs.drop m) j = byteAt bs (m + j) := by
  simp [byteAt, List.getD_eq_getElem?_getD]

/-- A byte of the start of a stream. -/
theorem byteAt_take (bs : List Byte) {m j : Nat} (h : j < m) : byteAt (bs.take m) j = byteAt bs j := by
  simp [byteAt, List.getD_eq_getElem?_getD, h]

/-- Exchanging the bytes of each pair twice restores the stream (R96 d). -/
theorem swapPairs_swapPairs (bs : List Byte) : swapPairs (swapPairs bs) = bs := by
  fun_induction swapPairs bs with
  | case1 a b rest ih => simp [swapPairs, ih]
  | case2 a => rfl
  | case3 => rfl

/-- The chunks of a concatenation whose first part is whole chunks. -/
theorem chunks_append {size m : Nat} {xs : List Byte} (h : xs.length = m * size) (n : Nat) (ys : List Byte) :
    chunks size (m + n) (xs ++ ys) = chunks size m xs ++ chunks size n ys := by
  induction m generalizing xs with
  | zero =>
    obtain rfl : xs = [] := List.length_eq_zero_iff.1 (by simpa using h)
    simp [chunks]
  | succ m ih =>
    rw [Nat.succ_mul] at h
    rw [show m + 1 + n = m + n + 1 by omega, chunks, chunks, List.take_append_of_le_length (by omega),
      List.drop_append_of_le_length (by omega), ih (by rw [List.length_drop]; omega), List.cons_append]

/-! ### The stream of PACK -/

/-- The bytes of packed words, two for each word (R90). -/
theorem flatMap_packWord_byteAt (d : Depth) (flip : Bool) {words : List (List Byte)} {g : List Byte} {k e : Nat}
    (hg : words[k]? = some g) (he : e < 2) :
    byteAt (words.flatMap (packWord d flip)) (2 * k + e) = byteAt (packWord d flip g) e := by
  induction words generalizing k with
  | nil => simp at hg
  | cons w words ih =>
    cases k with
    | zero =>
      obtain rfl : w = g := by simpa using hg
      simp [byteAt, List.getD_eq_getElem?_getD, List.getElem?_append_left, he]
    | succ k =>
      have hindex : 2 * (k + 1) + e = 2 + (2 * k + e) := by omega
      rw [← ih (by simpa using hg), hindex, ← byteAt_drop, List.flatMap_cons,
        List.drop_left' (packWord_length d flip w)]

/-- The bytes of word `k` of PACK are those packed from the samples `k*step` on (R92). -/
theorem bytesOut_pack_byteAt (d : Depth) (flip : Bool) {bs : List Byte} {k e : Nat} (hk : k < bs.length / d.step)
    (he : e < 2) : byteAt (bytesOut bs (.pack flip d)) (2 * k + e) =
      byteAt (packWord d flip ((bs.drop (k * d.step)).take d.step)) e :=
  flatMap_packWord_byteAt d flip (chunks_getElem? _ _ _ _ hk) he

/-- PACK looks only at which samples are zero (R95, R96 c). -/
theorem bytesOut_pack_congr (d : Depth) (flip : Bool) {xs ys : List Byte} (h : xs.map nz = ys.map nz) :
    bytesOut xs (.pack flip d) = bytesOut ys (.pack flip d) := by
  have hwords (count : Nat) : (chunks d.step count xs).flatMap (packWord d flip) =
      (chunks d.step count ys).flatMap (packWord d flip) := by
    induction count generalizing xs ys with
    | zero => rfl
    | succ n ih =>
      rw [chunks, chunks, List.flatMap_cons, List.flatMap_cons,
        packWord_congr d flip (xs := xs.take d.step) (ys := ys.take d.step) (by simp [List.map_take, h]),
        ih (xs := xs.drop d.step) (ys := ys.drop d.step) (by simp [List.map_drop, h])]
  have hlen : xs.length = ys.length := by simpa using congrArg List.length h
  rw [bytesOut, bytesOut, hlen, hwords]

/-- PACK takes whole words one after another (R96 e). -/
theorem bytesOut_pack_append (d : Depth) (flip : Bool) {xs : List Byte} (h : xs.length % d.step = 0) (ys : List Byte) :
    bytesOut (xs ++ ys) (.pack flip d) = bytesOut xs (.pack flip d) ++ bytesOut ys (.pack flip d) := by
  have hdvd : d.step ∣ xs.length := Nat.dvd_of_mod_eq_zero h
  simp only [bytesOut]
  rw [List.length_append, Nat.add_div_of_dvd_right hdvd, chunks_append (Nat.div_mul_cancel hdvd).symm,
    List.flatMap_append]

/-- The flip exchanges the two bytes of every word (R94, R96 d). -/
theorem bytesOut_pack_flip (d : Depth) (bs : List Byte) :
    bytesOut bs (.pack true d) = swapPairs (bytesOut bs (.pack false d)) := by
  have hwords (words : List (List Byte)) :
      words.flatMap (packWord d true) = swapPairs (words.flatMap (packWord d false)) := by
    induction words with
    | nil => rfl
    | cons w words ih => simp [packWord, swapPairs, ih]
  exact hwords _

/-- PACK of words that are all alike. -/
theorem bytesOut_pack_replicate {d : Depth} {flip : Bool} {x b : Byte}
    (h : packWord d flip (List.replicate d.step x) = List.replicate 2 b) (words : Nat) :
    bytesOut (List.replicate (words * d.step) x) (.pack flip d) = List.replicate (2 * words) b := by
  have hstep : 0 < d.step := by cases d <;> decide
  induction words with
  | zero => simp [bytesOut, chunks]
  | succ n ih =>
    rw [Nat.succ_mul, Nat.add_comm, List.replicate_add, bytesOut_pack_append d flip (by simp), ih, Nat.mul_succ,
      Nat.add_comm (2 * n), List.replicate_add, ← h]
    simp [bytesOut, hstep, chunks]

/-- At depth 8 every sample of whole words is one byte (R95, R96 f). -/
theorem bytesOut_pack_d8 : ∀ {bs : List Byte}, bs.length % 2 = 0 →
    bytesOut bs (.pack false .d8) = bs.map Config.depth8Byte
  | [], _ => rfl
  | [_], h => absurd h Nat.one_ne_zero
  | x :: y :: rest, h => by
    have hrest := bytesOut_pack_d8 (bs := rest) (by simpa [Nat.add_assoc] using h)
    have hword : bytesOut [x, y] (.pack false .d8) = [Config.depth8Byte x, Config.depth8Byte y] := by
      have hbyte (s : Byte) : packByte .d8 [s] = Config.depth8Byte s := by
        simp [packByte, packFields, sampleField]
      simp [bytesOut, chunks, packWord, Depth.step, Depth.halfstep, Depth.bits, hbyte]
    have hwhole : [x, y].length % Depth.d8.step = 0 := by simp [Depth.step, Depth.bits]
    calc bytesOut ([x, y] ++ rest) (.pack false .d8)
        = bytesOut [x, y] (.pack false .d8) ++ bytesOut rest (.pack false .d8) :=
          bytesOut_pack_append .d8 false hwhole rest
      _ = [x, y].map Config.depth8Byte ++ rest.map Config.depth8Byte := by rw [hword, hrest]; rfl

/-! ### What PACK replies -/

/-- PACK replies with its stream to whole words of samples (R92). -/
theorem exec_pack {s : State} {d : Depth} (hf : s.Fresh) (hlen : s.din.length % (16 / depthBits d) = 0)
    (h : s.Admits s.din.length) (flip : Bool) :
    exec (.pack flip d) s = .next (s.reply (replied (bytesOut s.din (.pack flip d)) [])) :=
  exec_of_accepted hf (beq_iff_eq.2 hlen) h fun m hm => (Nat.div_le_self _ _).trans (h m hm)

/-- `exec_pack` for an input put in place of `DIN`, with LEN_MAX unbounded. -/
theorem exec_pack_of_unbounded {s : State} {d : Depth} (hf : s.Fresh) (hu : s.Unbounded) (flip : Bool) {xs : List Byte}
    (hlen : xs.length % (16 / depthBits d) = 0) :
    exec (.pack flip d) { s with din := xs } = .next (s.reply (replied (bytesOut xs (.pack flip d)) [])) :=
  exec_pack (s := { s with din := xs }) hf hlen (State.Unbounded.admits hu _) flip

/-- What an instruction replies with LEN_MAX unbounded, whatever the output streams hold. -/
theorem exec_of_unbounded {s : State} (hu : s.Unbounded) (i : Instr) : exec i s = .next (s.reply
    (if lengthAccepted i s.din.length then replied (s.dout ++ bytesOut s.din i) (s.wout ++ wordsOut s.din i)
      else faulted .lengthError)) := by
  obtain ⟨hd, -⟩ | ⟨-, hl, he⟩ | ⟨-, -, ho, -⟩ | ⟨-, hl, -, he⟩ := exec_cases i s
  · exact absurd (hu.admits _) hd
  · rw [he, hl]
    rfl
  · exact absurd (hu.admits _) ho
  · rw [he, hl]
    rfl

/-! ### The statements -/

/-- Settles O20: the row of PACK in Table T53, the stream of `exec_pack` word by word (`bytesOut_pack_byteAt`) and bit
by bit (`packByte_getLsbD`), and the length fault. -/
theorem packSetsTheBitsOfNonzeroSamples : Obligations.PackSetsTheBitsOfNonzeroSamples := by
  refine ⟨fun c hrow => ?_, fun c hop hrow => decode_of_not_row (o := .pack) hop hrow,
    fun s flip d step halfstep hstep hhalf hf hlen h => ?_,
    fun s flip d hlen h => exec_of_not_accepted h (by simpa [lengthAccepted] using hlen)⟩
  · refine ⟨.ofSelector (fieldsOf c).dsel, ?_, ?_⟩
    · rw [depthBits, Depth.selector_ofSelector]
      rfl
    · rw [decode_of_row (o := .pack) hrow, Op.operands, flip_fieldsOf]
  · obtain rfl : step = d.step := hstep.trans (step_eq d).symm
    obtain rfl : halfstep = d.halfstep := hhalf.trans (halfstep_eq d).symm
    have haccepted : s.din.length % (16 / depthBits d) = 0 := by rwa [← step_eq]
    refine ⟨_, exec_pack hf haccepted h flip, ?_, fun k hk j hj t ht => ?_⟩
    · rw [bytesOut_length (i := .pack flip d) (beq_iff_eq.2 haccepted), doutLength, halfstep_eq]
    · rw [← bits_eq] at ht ⊢
      obtain ⟨ha, hb⟩ := packWord_byteAt d flip ((s.din.drop (k * d.step)).take d.step)
      have htwo := d.step_eq_halfstep_add
      constructor
      · rw [bytesOut_pack_byteAt d flip hk (by split <;> decide), ha, packByte_getLsbD d _ hj ht, byteAt_take _ hj,
          byteAt_take _ (by omega), byteAt_drop]
      · rw [bytesOut_pack_byteAt d flip hk (by split <;> decide), hb, packByte_getLsbD d _ hj ht, byteAt_drop,
          byteAt_take _ (by omega), byteAt_drop, Nat.add_assoc]

/-- Settles O26: every word packs to two bytes alike (`packWord_replicate`). -/
theorem packOfWhiteAndBlack : Obligations.PackOfWhiteAndBlack := by
  intro s flip d words hf hu
  obtain ⟨hwhite, hblack⟩ := packWord_replicate d flip
  have hexec (x : Byte) := exec_pack_of_unbounded (d := d) hf hu flip
    (xs := List.replicate (words * (16 / depthBits d)) x) (by simp)
  rw [hexec, hexec, ← step_eq, bytesOut_pack_replicate hwhite, bytesOut_pack_replicate hblack]
  exact ⟨rfl, rfl⟩

/-- Settles O27: the length check and the stream of PACK are those of any input with the same zeros
(`bytesOut_pack_congr`). -/
theorem packIsBlindToMagnitude : Obligations.PackIsBlindToMagnitude := by
  intro s flip d xs ys hu hnz
  have hexec (zs : List Byte) := exec_of_unbounded (s := { s with din := zs }) hu (.pack flip d)
  have hlen : xs.length = ys.length := by simpa using congrArg List.length hnz
  refine ⟨_, hexec xs, ?_⟩
  rw [hexec ys, hlen, bytesOut_pack_congr d flip hnz]
  rfl

/-- Settles O28: `bytesOut_pack_flip`, and exchanging is its own inverse. -/
theorem packFlipExchangesBytes : Obligations.PackFlipExchangesBytes := by
  intro s d hf hu hlen
  have hexec := exec_pack hf hlen (hu.admits _)
  exact ⟨_, hexec false, by rw [hexec true, bytesOut_pack_flip], swapPairs_swapPairs _⟩

/-- Settles O29: `bytesOut_pack_append` for two inputs of whole words, whose concatenation is whole words too. -/
theorem packOfAConcatenation : Obligations.PackOfAConcatenation := by
  intro s flip d xs ys hf hu hx hy
  have hxy : (xs ++ ys).length % (16 / depthBits d) = 0 := by simp [Nat.add_mod, hx, hy]
  refine ⟨_, _, exec_pack_of_unbounded hf hu flip hx, exec_pack_of_unbounded hf hu flip hy, ?_⟩
  rw [exec_pack_of_unbounded hf hu flip hxy, bytesOut_pack_append d flip (by rwa [step_eq])]

/-- Settles O30: `bytesOut_pack_d8`, with the pairs exchanged by the flip (`bytesOut_pack_flip`). -/
theorem packAtDepthEightBinarises : Obligations.PackAtDepthEightBinarises := by
  intro s hf hu hlen
  have hexec := exec_pack (d := .d8) hf hlen (hu.admits _)
  have hd8 := bytesOut_pack_d8 hlen
  refine ⟨?_, ?_⟩
  · rw [hexec, hd8]
    rfl
  · rw [hexec, bytesOut_pack_flip, hd8]
    rfl

end Sys2Proof.Machine
end

