-- ==== Sys2Proof/Proofs/CommandFraming.lean ====
section
/-! PROOFS. Command Framing (43_command_framing.md R110 to R119): CBW, CSW and REGCMD. As for the codec, each rests on the
row of Table T53 (`decode_of_row`, `decode_of_not_row`) and on what an instruction replies to an accepted and to another
length (`exec_of_accepted`, `exec_of_not_accepted`); the encodings of R30 to R32 give the bytes one by one. -/

namespace Sys2Proof

/-- The low bits of field `b` are the bits of the descriptor from 64 on (Table T51). -/
theorem extractLsb'_b_fieldsOf (c : Cmd) {n : Nat} (h : n ≤ 32) :
    (fieldsOf c).b.extractLsb' 0 n = c.extractLsb' 64 n := by
  ext i hi
  simp [fieldsOf, show i < 32 by omega]

end Sys2Proof

namespace Sys2Proof.Machine

/-! ### What the three operations reply -/

/-- CBW replies with the wrapper to every `DIN`; the bound on `DOUT` bounds `DIN` too (R111). -/
theorem exec_cbw {s : State} (hf : s.Fresh) (h : s.Admits (15 + s.din.length)) (be : ByteOrder)
    (flags lun cmdlen : Byte) (tag dtl : Word) :
    exec (.cbw be flags lun cmdlen tag dtl) s = .next (s.reply (replied
      (cbwSignature ++ (enc32 tag be).toList ++ (enc32 dtl be).toList ++ [flags, lun, cmdlen] ++ s.din) [])) :=
  exec_of_accepted hf rfl (fun m hm => (Nat.le_add_left _ _).trans (h m hm)) h

/-- CSW replies to 13 bytes with the signature and the status, and with the tag and the residue as words (R115). -/
theorem exec_csw {s : State} (hf : s.Fresh) (hlen : s.din.length = 13) (h : s.Admits 13) (be : ByteOrder) :
    exec (.csw be) s = .next (s.reply (replied (s.din.take 4 ++ (s.din.drop 12).take 1)
      [wordOf be ((s.din.drop 4).take 4), wordOf be ((s.din.drop 8).take 4)])) := by
  have hout : s.Admits 5 := fun m hm => (show 5 ≤ 13 by decide).trans (h m hm)
  exact exec_of_accepted hf (beq_iff_eq.2 hlen) (by rwa [hlen]) hout

/-- REGCMD replies with the header, the fields in their big-endian encodings, and seven zeros (R118). -/
theorem exec_regcmd {s : State} (hf : s.Fresh) (hdin : s.din = []) (h : s.Admits 16) (code : Byte) (address : Word)
    (lov : Half) :
    exec (.regcmd code address lov) s = .next (s.reply (replied
      ([regcmdHeader, 0x00] ++ (enc32 address .big).toList ++ [code] ++ (enc16 lov .big).toList ++
        [0, 0, 0, 0, 0, 0, 0]) [])) :=
  exec_of_empty hf hdin rfl h

/-! ### The three operations -/

/-- Settles O21: the row of CBW in Table T53, and `exec_cbw` in either byte order. -/
theorem cbwBuildsTheWrapper : Obligations.CbwBuildsTheWrapper := by
  refine ⟨fun c hrow => ?_, fun c hop hrow => decode_of_not_row (o := .cbw) hop hrow,
    fun s flags lun cmdlen tag dtl hf h => ?_⟩
  · rw [decode_of_row (o := .cbw) hrow, Op.operands, ofBit_be_fieldsOf]
    rfl
  · have hexec (be : ByteOrder) := exec_cbw hf h be flags lun cmdlen tag dtl
    exact ⟨hexec .big, hexec .little⟩

/-- Settles O22: the row of CSW in Table T53, `exec_csw` in either byte order, and the length fault. -/
theorem cswSplitsThirteenBytes : Obligations.CswSplitsThirteenBytes := by
  refine ⟨fun c hrow => ?_, fun c hop hrow => decode_of_not_row (o := .csw) hop hrow,
    fun s g0 g1 g2 g3 t0 t1 t2 t3 r0 r1 r2 r3 status hf hdin h => ?_,
    fun s be hlen h => exec_of_not_accepted h (by simpa [lengthAccepted] using hlen)⟩
  · rw [decode_of_row (o := .csw) hrow, Op.operands, ofBit_be_fieldsOf]
  · have hexec (be : ByteOrder) := exec_csw hf (by rw [hdin]; rfl) h be
    rw [hdin] at hexec
    exact ⟨hexec .big, hexec .little⟩

/-- Settles O23: the row of REGCMD in Table T53, `exec_regcmd`, and the length fault. -/
theorem regcmdBuildsSixteenBytes : Obligations.RegcmdBuildsSixteenBytes := by
  refine ⟨fun c hrow => ?_, fun c hop hrow => decode_of_not_row (o := .regcmd) hop hrow,
    fun s code address lov hf hdin h => exec_regcmd hf hdin h code address lov,
    fun s code address lov hdin h => exec_of_not_accepted h (by simpa [lengthAccepted] using hdin)⟩
  rw [decode_of_row (o := .regcmd) hrow, Op.operands, extractLsb'_b_fieldsOf c (by decide)]
  rfl

end Sys2Proof.Machine
end

