-- ==== Sys2Proof/Proofs/Exceptions.lean ====
section
/-! PROOFS. The completion codes and their priority (60_exceptions.md R130 to R133, R136, R137), and the idle unit (R135;
70_reset_and_hazards.md R163). The code of a transaction is that of `response`, whatever the output streams hold, so each
rung of the priority is one equation for `response`. -/

namespace Sys2Proof.Machine

/-! ### The idle unit -/

/-- Settles O10: while the host waits the unit serves (`step_of_hostWaits`), and an idle unit has nothing to serve. -/
theorem idleUnitDoesNothing : Obligations.IdleUnitDoesNothing := by
  intro s hidle hwaits
  simp [step_of_hostWaits hwaits, State.serve, hidle]

/-! ### The priority of the faults -/

/-- A reserved `op` comes first (R131, R136). -/
theorem response_of_reservedOp {c : Cmd} (h : reservedOp c = true) (din : List Byte) :
    response c din = faulted .illegalOperation := by
  simp [response, decode_of_reservedOp h]

/-- A non-zero must-be-zero field of a defined `op` comes next (R132, R136). -/
theorem response_of_not_wellFormed {c : Cmd} {o : Op} (hop : namesOp c o) (hwf : (fieldsOf c).wellFormed o = false)
    (din : List Byte) : response c din = faulted .illegalField := by
  have hrow : c &&& o.mask ≠ o.pattern := fun h => by simp [(maskAgreesWithFields c o hop).1 h] at hwf
  simp [response, decode_of_not_row hop hrow]

/-- A well-formed descriptor leaves the answer to its instruction (R133, R136). -/
theorem response_of_decode {c : Cmd} {i : Instr} (h : decode c = .instr i) (din : List Byte) :
    response c din = instrResponse din i := by
  simp [response, h]

/-! ### The codes -/

/-- No code above 3 is ever produced (R130). -/
theorem Stat.code_le_three (st : Stat) : st.code.toNat ≤ 3 := by
  obtain _ | (_ | _ | _) := st <;> decide

/-- A code other than 0 is that of a fault (R130). -/
theorem Stat.ne_ok_of_code_ne_zero {st : Stat} (h : st.code ≠ 0) : st ≠ .ok := by
  rintro rfl
  exact h rfl

/-! ### Completion -/

/-- With LEN_MAX unbounded an instruction replies with the code of `instrResponse`, whatever the output streams hold. -/
theorem exec_replies_of_unbounded {s : State} (hu : s.Unbounded) (i : Instr) :
    ∃ r, exec i s = .next (s.reply r) ∧ r.stat = (instrResponse s.din i).stat ∧ s.MayDeliver r := by
  have hexec := exec_of_unbounded hu i
  cases hl : lengthAccepted i s.din.length <;> rw [hl] at hexec
  · rw [instrResponse_of_not_accepted hl]
    exact ⟨_, hexec, rfl, s.mayDeliver_faulted _⟩
  · rw [instrResponse_of_accepted hl]
    exact ⟨_, hexec, rfl, State.mayDeliver_replied (hu.admits _) _⟩

/-- With LEN_MAX unbounded the step of a serving unit replies with the code of `response`, whatever the output streams
hold. -/
theorem step_replies_of_unbounded {s : State} (hs : s.Serving) (hu : s.Unbounded) :
    ∃ r, step s = .next (s.tick.reply r) ∧ r.stat = (response s.cmd s.din).stat ∧ s.MayDeliver r := by
  obtain hres | ⟨o, hop⟩ := reservedOp_or_namesOp s.cmd
  · rw [response_of_reservedOp hres]
    exact ⟨_, (illegalDescriptorRaises s hs).1 hres, rfl, s.mayDeliver_faulted _⟩
  · cases hwf : (fieldsOf s.cmd).wellFormed o with
    | false =>
      rw [response_of_not_wellFormed hop hwf]
      exact ⟨_, (illegalDescriptorRaises s hs).2 o hop hwf, rfl, s.mayDeliver_faulted _⟩
    | true =>
      have hd := decode_of_row ((maskAgreesWithFields s.cmd o hop).2 hwf)
      rw [stepRunsTheDecodedInstruction s _ hs hd, response_of_decode hd]
      exact exec_replies_of_unbounded (s := s.tick) hu _

/-- Settles O12: a serving unit replies with the code of `response` (`step_replies_of_unbounded`), and each rung of the
priority is one equation for `response`; a response that may be delivered with a fault has empty streams. -/
theorem completionCodeAndPriority : Obligations.CompletionCodeAndPriority := by
  intro s hserving hunbounded
  obtain ⟨r, hstep, hstat, hempty, -⟩ := step_replies_of_unbounded hserving hunbounded
  refine ⟨r, hstep, fun hres => ?_, fun o hop hwf => ?_, fun i hd hl => ?_, fun i hd hl => ?_,
    r.stat.code_le_three, fun hcode => hempty (Stat.ne_ok_of_code_ne_zero hcode)⟩
  · rw [hstat, response_of_reservedOp hres]
    rfl
  · rw [hstat, response_of_not_wellFormed hop hwf]
    rfl
  · rw [hstat, response_of_decode hd, instrResponse_of_not_accepted hl]
    rfl
  · rw [hstat, response_of_decode hd, instrResponse_of_accepted hl]
    rfl

end Sys2Proof.Machine
end

