-- ==== Sys2Proof/Proofs/ResetAndHazards.lean ====
section
/-! PROOFS. A reset pulled by the host (70_reset_and_hazards.md R150, R151). -/

namespace Sys2Proof.Machine

/-- The step of a reset, in an idle or a busy unit. -/
theorem step_of_reset {s : State} {rest : List HostAct} (hh : s.host = .reset :: rest) :
    step s = .next s.tick.clear := by
  simp [step, fetch, hh, State.tick]

/-- Settles O9: a reset clears the unit (`step_of_reset`), with the reset taken from the host's list. -/
theorem resetAbandonsTheTransaction : Obligations.ResetAbandonsTheTransaction := by
  intro s rest hhost
  rw [step_of_reset hhost]
  simp [State.clear, State.tick, hhost]

end Sys2Proof.Machine
end
